-- ==== Sys2Proof/Word.lean ====
section
/-! DEFINITION. The word types of the machine and the slice of a word: `00_scope.md` rule R7. -/

namespace Sys2Proof

/-- One byte: a general register, a timer, a memory cell (`00_scope.md` R5). -/
abbrev Byte := BitVec 8

/-- A 16-bit quantity: `I`, `PC`, a stack entry, an opcode (`00_scope.md` R5, R7). -/
abbrev Word := BitVec 16

/-- The number of a general register, 0 to 15 (`10_state.md` R10). -/
abbrev Reg := Fin 16

/-- `VF`, the register that doubles as the flag (`10_state.md` R11). -/
abbrev VF : Reg := 15

/-- `w[hi:lo]` as an unsigned number (`00_scope.md` R7). -/
def slice (w : Word) (hi lo : Nat) : Nat := w.toNat / 2 ^ lo % 2 ^ (hi + 1 - lo)

end Sys2Proof
end

