-- ==== Sys2Proof/Syntax.lean ====
section
/-! DEFINITION. The instructions: one constructor per row of spec/opcode_table.json, with exactly the row's fields
(`30_encoding.md` R62, R66; the last row is the fallback of R67, `45_unrecognized.md` R150). -/

namespace Sys2Proof

inductive Instr where
  /-- `00E0`, `CLS` (R131). -/
  | cls
  /-- `00EE`, `RET` (R82). -/
  | ret
  /-- `1nnn`, `JP nnn` (R83). -/
  | jp (nnn : BitVec 12)
  /-- `2nnn`, `CALL nnn` (R84). -/
  | call (nnn : BitVec 12)
  /-- `3xnn`, `SE Vx, nn` (R86). -/
  | seImm (x : Reg) (nn : Byte)
  /-- `4xnn`, `SNE Vx, nn` (R87). -/
  | sneImm (x : Reg) (nn : Byte)
  /-- `5xy0`, `SE Vx, Vy` (R88); the low nibble of the word is not an operand (R68). -/
  | seReg (x y : Reg)
  /-- `6xnn`, `LD Vx, nn` (R101). -/
  | ldImm (x : Reg) (nn : Byte)
  /-- `7xnn`, `ADD Vx, nn` (R102). -/
  | addImm (x : Reg) (nn : Byte)
  /-- `8xy0`, `LD Vx, Vy` (R103). -/
  | ldReg (x y : Reg)
  /-- `8xy1`, `OR Vx, Vy` (R104). -/
  | orReg (x y : Reg)
  /-- `8xy2`, `AND Vx, Vy` (R105). -/
  | andReg (x y : Reg)
  /-- `8xy3`, `XOR Vx, Vy` (R106). -/
  | xorReg (x y : Reg)
  /-- `8xy4`, `ADD Vx, Vy` (R107). -/
  | addReg (x y : Reg)
  /-- `8xy5`, `SUB Vx, Vy` (R108). -/
  | subReg (x y : Reg)
  /-- `8xy6`, `SHR Vx` (R109); `y` is a field of the word that the instruction ignores (R68). -/
  | shr (x y : Reg)
  /-- `8xy7`, `SUBN Vx, Vy` (R110). -/
  | subnReg (x y : Reg)
  /-- `8xyE`, `SHL Vx` (R111); `y` is a field of the word that the instruction ignores (R68). -/
  | shl (x y : Reg)
  /-- `9xy0`, `SNE Vx, Vy` (R89); the low nibble of the word is not an operand (R68). -/
  | sneReg (x y : Reg)
  /-- `Annn`, `LD I, nnn` (R120). -/
  | ldI (nnn : BitVec 12)
  /-- `Bnnn`, `JP V0, nnn` (R85). -/
  | jpV0 (nnn : BitVec 12)
  /-- `Cxnn`, `RND Vx, nn` (R112). -/
  | rnd (x : Reg) (nn : Byte)
  /-- `Dxyn`, `DRW Vx, Vy, n` (R132); `n` is the height, 0 to 15. -/
  | drw (x y : Reg) (n : Fin 16)
  /-- `Ex9E`, `SKP Vx` (R140). -/
  | skp (x : Reg)
  /-- `ExA1`, `SKNP Vx` (R141). -/
  | sknp (x : Reg)
  /-- `Fx07`, `LD Vx, DT` (R144). -/
  | ldVxDT (x : Reg)
  /-- `Fx0A`, `LD Vx, K` (R143). -/
  | ldVxK (x : Reg)
  /-- `Fx15`, `LD DT, Vx` (R145). -/
  | ldDTVx (x : Reg)
  /-- `Fx18`, `LD ST, Vx` (R146). -/
  | ldSTVx (x : Reg)
  /-- `Fx1E`, `ADD I, Vx` (R121). -/
  | addIVx (x : Reg)
  /-- `Fx29`, `LD F, Vx` (R122). -/
  | ldFVx (x : Reg)
  /-- `Fx33`, `LD B, Vx` (R123). -/
  | ldBVx (x : Reg)
  /-- `Fx55`, `LD [I], Vx` (R124). -/
  | storeRegs (x : Reg)
  /-- `Fx65`, `LD Vx, [I]` (R125). -/
  | loadRegs (x : Reg)
  /-- Every other word: a reported one-word no-op (R150). -/
  | unknown (op : Word)
  deriving DecidableEq, Repr

end Sys2Proof
end

