-- ==== Sys2Proof/WellFormed.lean ====
section
/-! DEFINITION. Which terms of `Instr` are instructions of the machine. The field types already bound every operand
(`30_encoding.md` R61, R63), so the one check left is on the fallback row: its word belongs to one of the four classes
of `30_encoding.md` R67. -/

namespace Sys2Proof

/-- Family 0 with `nnn` other than 0x0E0 and 0x0EE (R67, R69). -/
def unrecognized0 (w : Word) : Bool := slice w 15 12 == 0x0 && !([0x0E0, 0x0EE].contains (slice w 11 0))

/-- Family 8 with `n` in 8, 9, A, B, C, D, F (R67). -/
def unrecognized8 (w : Word) : Bool := slice w 15 12 == 0x8 && [0x8, 0x9, 0xA, 0xB, 0xC, 0xD, 0xF].contains (slice w 3 0)

/-- Family E with `nn` other than 0x9E and 0xA1 (R67). -/
def unrecognizedE (w : Word) : Bool := slice w 15 12 == 0xE && !([0x9E, 0xA1].contains (slice w 7 0))

/-- Family F with `nn` other than its nine sub-opcodes (R67). -/
def unrecognizedF (w : Word) : Bool :=
  slice w 15 12 == 0xF && !([0x07, 0x0A, 0x15, 0x18, 0x1E, 0x29, 0x33, 0x55, 0x65].contains (slice w 7 0))

/-- The four classes of unrecognized words, 13902 in all (R67). -/
def unrecognized (w : Word) : Bool := unrecognized0 w || unrecognized8 w || unrecognizedE w || unrecognizedF w

/-- An instruction is well-formed unless it is the fallback row carrying a word that is an instruction. -/
def Instr.wf : Instr → Bool
  | .unknown op => unrecognized op
  | .cls | .ret | .jp _ | .call _ | .seImm _ _ | .sneImm _ _ | .seReg _ _ | .ldImm _ _ | .addImm _ _ | .ldReg _ _
  | .orReg _ _ | .andReg _ _ | .xorReg _ _ | .addReg _ _ | .subReg _ _ | .shr _ _ | .subnReg _ _ | .shl _ _
  | .sneReg _ _ | .ldI _ | .jpV0 _ | .rnd _ _ | .drw _ _ _ | .skp _ | .sknp _ | .ldVxDT _ | .ldVxK _ | .ldDTVx _
  | .ldSTVx _ | .addIVx _ | .ldFVx _ | .ldBVx _ | .storeRegs _ | .loadRegs _ => true

end Sys2Proof
end

