-- ==== Sys2Proof/Decode.lean ====
section
/-! DEFINITION. The decoder (`30_encoding.md` R60, R61, R64, R65), total on words and on bytes, and after it the encoder
(`30_encoding.md` R62, R66). -/

namespace Sys2Proof

/-! ### The fields of a word (R61) -/

/-- `family = bits[15:12]`. -/
def family (w : Word) : Nat := slice w 15 12
/-- `x = bits[11:8]`. -/
def fieldX (w : Word) : Reg := Fin.ofNat 16 (slice w 11 8)
/-- `y = bits[7:4]`. -/
def fieldY (w : Word) : Reg := Fin.ofNat 16 (slice w 7 4)
/-- `n = bits[3:0]`. -/
def fieldN (w : Word) : Fin 16 := Fin.ofNat 16 (slice w 3 0)
/-- `nn = bits[7:0]`. -/
def fieldNN (w : Word) : Byte := BitVec.ofNat 8 (slice w 7 0)
/-- `nnn = bits[11:0]`. -/
def fieldNNN (w : Word) : BitVec 12 := BitVec.ofNat 12 (slice w 11 0)

/-! ### Families that overload (R65) -/

/-- Family 0: all 12 bits of `nnn` select (R65, R69, decision D17). -/
def decode0 (w : Word) : Instr :=
  if slice w 11 0 = 0x0E0 then .cls
  else if slice w 11 0 = 0x0EE then .ret
  else .unknown w

/-- Family 8: `n` selects (R65). -/
def decode8 (w : Word) : Instr :=
  match slice w 3 0 with
  | 0x0 => .ldReg (fieldX w) (fieldY w)
  | 0x1 => .orReg (fieldX w) (fieldY w)
  | 0x2 => .andReg (fieldX w) (fieldY w)
  | 0x3 => .xorReg (fieldX w) (fieldY w)
  | 0x4 => .addReg (fieldX w) (fieldY w)
  | 0x5 => .subReg (fieldX w) (fieldY w)
  | 0x6 => .shr (fieldX w) (fieldY w)
  | 0x7 => .subnReg (fieldX w) (fieldY w)
  | 0xE => .shl (fieldX w) (fieldY w)
  | _ => .unknown w

/-- Family E: `nn` selects (R65). -/
def decodeE (w : Word) : Instr :=
  if slice w 7 0 = 0x9E then .skp (fieldX w)
  else if slice w 7 0 = 0xA1 then .sknp (fieldX w)
  else .unknown w

/-- Family F: `nn` selects (R65). -/
def decodeF (w : Word) : Instr :=
  if slice w 7 0 = 0x07 then .ldVxDT (fieldX w)
  else if slice w 7 0 = 0x0A then .ldVxK (fieldX w)
  else if slice w 7 0 = 0x15 then .ldDTVx (fieldX w)
  else if slice w 7 0 = 0x18 then .ldSTVx (fieldX w)
  else if slice w 7 0 = 0x1E then .addIVx (fieldX w)
  else if slice w 7 0 = 0x29 then .ldFVx (fieldX w)
  else if slice w 7 0 = 0x33 then .ldBVx (fieldX w)
  else if slice w 7 0 = 0x55 then .storeRegs (fieldX w)
  else if slice w 7 0 = 0x65 then .loadRegs (fieldX w)
  else .unknown w

/-! ### The decoder -/

/-- Decode of one word: select on `family`, inside families 0, 8, E and F select again, anything not selected is
unrecognized (R64, R67). Families 5 and 9 do not examine `n` (R65, R68, decision D16). The last arm is never taken:
`family` is below 16. -/
def decodeWord (w : Word) : Instr :=
  match family w with
  | 0x0 => decode0 w
  | 0x1 => .jp (fieldNNN w)
  | 0x2 => .call (fieldNNN w)
  | 0x3 => .seImm (fieldX w) (fieldNN w)
  | 0x4 => .sneImm (fieldX w) (fieldNN w)
  | 0x5 => .seReg (fieldX w) (fieldY w)
  | 0x6 => .ldImm (fieldX w) (fieldNN w)
  | 0x7 => .addImm (fieldX w) (fieldNN w)
  | 0x8 => decode8 w
  | 0x9 => .sneReg (fieldX w) (fieldY w)
  | 0xA => .ldI (fieldNNN w)
  | 0xB => .jpV0 (fieldNNN w)
  | 0xC => .rnd (fieldX w) (fieldNN w)
  | 0xD => .drw (fieldX w) (fieldY w) (fieldN w)
  | 0xE => decodeE w
  | 0xF => decodeF w
  | _ => .unknown w

/-- The opcode of two bytes, the first one high (`20_memory.md` R42). -/
def wordOfBytes (hi lo : Byte) : Word := BitVec.ofNat 16 (hi.toNat * 256 + lo.toNat)

/-- The byte at the lower address: opcode bits 15:8 (`20_memory.md` R42). -/
def highByte (w : Word) : Byte := BitVec.ofNat 8 (slice w 15 8)
/-- The byte at the higher address: opcode bits 7:0 (`20_memory.md` R42). -/
def lowByte (w : Word) : Byte := BitVec.ofNat 8 (slice w 7 0)

/-- Why bytes do not decode: every instruction is 2 bytes (R60) and every word decodes (R64), so the one reason is that
fewer than two bytes are there. -/
inductive DecodeError where
  | truncated
  deriving DecidableEq, Repr

/-- Decode of a list of bytes: the first instruction and the bytes after it. -/
def decode : List Byte → Except DecodeError (Instr × List Byte)
  | hi :: lo :: rest => .ok (decodeWord (wordOfBytes hi lo), rest)
  | _ => .error .truncated

/-- The instruction the decoder reads from an instruction whose bits are `w`, bit 0 the least significant of its one
word: the word's two bytes are laid out high byte first and given to `decode`. -/
def decodeTableWord (nbits w : Nat) : Option Instr :=
  let op : Word := BitVec.ofNat 16 (w % 2 ^ nbits)
  match decode [highByte op, lowByte op] with
  | .ok (i, _) => some i
  | .error _ => none

/-! ### The encoder, format by format (R62) -/

/-- Format `NNN`. -/
def packNNN (f : Nat) (nnn : BitVec 12) : Word := BitVec.ofNat 16 (f * 0x1000 + nnn.toNat)
/-- Format `XNN`; format `X` is this one with the sub-opcode in `nn`. -/
def packXNN (f : Nat) (x : Reg) (nn : Byte) : Word := BitVec.ofNat 16 (f * 0x1000 + x.val * 0x100 + nn.toNat)
/-- Format `XYN`; format `XY` is this one with the sub-opcode in `n`. -/
def packXYN (f : Nat) (x y : Reg) (n : Fin 16) : Word :=
  BitVec.ofNat 16 (f * 0x1000 + x.val * 0x100 + y.val * 0x10 + n.val)

/-- The one word of a well-formed instruction, from the pattern column of R66; the don't-care nibble of `5xy0` and
`9xy0` is the canonical 0 (R68). -/
def encode : Instr → Word
  | .cls => 0x00E0
  | .ret => 0x00EE
  | .jp nnn => packNNN 0x1 nnn
  | .call nnn => packNNN 0x2 nnn
  | .seImm x nn => packXNN 0x3 x nn
  | .sneImm x nn => packXNN 0x4 x nn
  | .seReg x y => packXYN 0x5 x y 0x0
  | .ldImm x nn => packXNN 0x6 x nn
  | .addImm x nn => packXNN 0x7 x nn
  | .ldReg x y => packXYN 0x8 x y 0x0
  | .orReg x y => packXYN 0x8 x y 0x1
  | .andReg x y => packXYN 0x8 x y 0x2
  | .xorReg x y => packXYN 0x8 x y 0x3
  | .addReg x y => packXYN 0x8 x y 0x4
  | .subReg x y => packXYN 0x8 x y 0x5
  | .shr x y => packXYN 0x8 x y 0x6
  | .subnReg x y => packXYN 0x8 x y 0x7
  | .shl x y => packXYN 0x8 x y 0xE
  | .sneReg x y => packXYN 0x9 x y 0x0
  | .ldI nnn => packNNN 0xA nnn
  | .jpV0 nnn => packNNN 0xB nnn
  | .rnd x nn => packXNN 0xC x nn
  | .drw x y n => packXYN 0xD x y n
  | .skp x => packXNN 0xE x 0x9E
  | .sknp x => packXNN 0xE x 0xA1
  | .ldVxDT x => packXNN 0xF x 0x07
  | .ldVxK x => packXNN 0xF x 0x0A
  | .ldDTVx x => packXNN 0xF x 0x15
  | .ldSTVx x => packXNN 0xF x 0x18
  | .addIVx x => packXNN 0xF x 0x1E
  | .ldFVx x => packXNN 0xF x 0x29
  | .ldBVx x => packXNN 0xF x 0x33
  | .storeRegs x => packXNN 0xF x 0x55
  | .loadRegs x => packXNN 0xF x 0x65
  | .unknown op => op

/-- The two bytes of an instruction, high byte first (R60). -/
def encodeBytes (i : Instr) : List Byte := [highByte (encode i), lowByte (encode i)]

/-! ### The opcode map, row by row (R66)

The decoder above is the procedure of R64; R66 states the same map as masks. The table stands here so that the two can be
compared. -/

/-- A row of R66: `op` is the instruction iff `op &&& mask = pat`. -/
structure OpcodeRow where
  pat : Word
  mask : Word
  deriving DecidableEq, Repr

/-- The row of R66 an instruction belongs to; none for the fallback row. -/
def opcodeRow : Instr → Option OpcodeRow
  | .cls => some ⟨0x00E0, 0xFFFF⟩
  | .ret => some ⟨0x00EE, 0xFFFF⟩
  | .jp _ => some ⟨0x1000, 0xF000⟩
  | .call _ => some ⟨0x2000, 0xF000⟩
  | .seImm _ _ => some ⟨0x3000, 0xF000⟩
  | .sneImm _ _ => some ⟨0x4000, 0xF000⟩
  | .seReg _ _ => some ⟨0x5000, 0xF000⟩
  | .ldImm _ _ => some ⟨0x6000, 0xF000⟩
  | .addImm _ _ => some ⟨0x7000, 0xF000⟩
  | .ldReg _ _ => some ⟨0x8000, 0xF00F⟩
  | .orReg _ _ => some ⟨0x8001, 0xF00F⟩
  | .andReg _ _ => some ⟨0x8002, 0xF00F⟩
  | .xorReg _ _ => some ⟨0x8003, 0xF00F⟩
  | .addReg _ _ => some ⟨0x8004, 0xF00F⟩
  | .subReg _ _ => some ⟨0x8005, 0xF00F⟩
  | .shr _ _ => some ⟨0x8006, 0xF00F⟩
  | .subnReg _ _ => some ⟨0x8007, 0xF00F⟩
  | .shl _ _ => some ⟨0x800E, 0xF00F⟩
  | .sneReg _ _ => some ⟨0x9000, 0xF000⟩
  | .ldI _ => some ⟨0xA000, 0xF000⟩
  | .jpV0 _ => some ⟨0xB000, 0xF000⟩
  | .rnd _ _ => some ⟨0xC000, 0xF000⟩
  | .drw _ _ _ => some ⟨0xD000, 0xF000⟩
  | .skp _ => some ⟨0xE09E, 0xF0FF⟩
  | .sknp _ => some ⟨0xE0A1, 0xF0FF⟩
  | .ldVxDT _ => some ⟨0xF007, 0xF0FF⟩
  | .ldVxK _ => some ⟨0xF00A, 0xF0FF⟩
  | .ldDTVx _ => some ⟨0xF015, 0xF0FF⟩
  | .ldSTVx _ => some ⟨0xF018, 0xF0FF⟩
  | .addIVx _ => some ⟨0xF01E, 0xF0FF⟩
  | .ldFVx _ => some ⟨0xF029, 0xF0FF⟩
  | .ldBVx _ => some ⟨0xF033, 0xF0FF⟩
  | .storeRegs _ => some ⟨0xF055, 0xF0FF⟩
  | .loadRegs _ => some ⟨0xF065, 0xF0FF⟩
  | .unknown _ => none

/-- The 34 rows of R66 in its order. -/
def opcodeMap : List OpcodeRow :=
  [⟨0x00E0, 0xFFFF⟩, ⟨0x00EE, 0xFFFF⟩, ⟨0x1000, 0xF000⟩, ⟨0x2000, 0xF000⟩, ⟨0x3000, 0xF000⟩, ⟨0x4000, 0xF000⟩,
   ⟨0x5000, 0xF000⟩, ⟨0x6000, 0xF000⟩, ⟨0x7000, 0xF000⟩] ++
  [⟨0x8000, 0xF00F⟩, ⟨0x8001, 0xF00F⟩, ⟨0x8002, 0xF00F⟩, ⟨0x8003, 0xF00F⟩, ⟨0x8004, 0xF00F⟩, ⟨0x8005, 0xF00F⟩,
   ⟨0x8006, 0xF00F⟩, ⟨0x8007, 0xF00F⟩, ⟨0x800E, 0xF00F⟩] ++
  [⟨0x9000, 0xF000⟩, ⟨0xA000, 0xF000⟩, ⟨0xB000, 0xF000⟩, ⟨0xC000, 0xF000⟩, ⟨0xD000, 0xF000⟩, ⟨0xE09E, 0xF0FF⟩,
   ⟨0xE0A1, 0xF0FF⟩] ++
  [⟨0xF007, 0xF0FF⟩, ⟨0xF00A, 0xF0FF⟩, ⟨0xF015, 0xF0FF⟩, ⟨0xF018, 0xF0FF⟩, ⟨0xF01E, 0xF0FF⟩, ⟨0xF029, 0xF0FF⟩,
   ⟨0xF033, 0xF0FF⟩, ⟨0xF055, 0xF0FF⟩, ⟨0xF065, 0xF0FF⟩]

/-- The word selects the row (R66). -/
def OpcodeRow.selects (r : OpcodeRow) (w : Word) : Bool := w &&& r.mask == r.pat

/-- The word with its don't-care nibble cleared: the low nibble in families 5 and 9 (R68). The `y` of `8xy6` and `8xyE`
is kept, since it is a field of the instruction. -/
def canonicalWord (w : Word) : Word := if family w = 0x5 ∨ family w = 0x9 then w &&& 0xFFF0 else w

end Sys2Proof
end

