-- ==== Sys2Proof/Config.lean ====
section
/-! DEFINITION. The sizes the document fixes (`00_scope.md` R5), the type of its parameter `FONTSET` and the two free values of
the machine, the random byte and the host's endless schedule (`00_scope.md` R6). -/

namespace Sys2Proof

namespace Config

/-- Bytes of main memory: addresses 0x000 to 0xFFF (`00_scope.md` R5). -/
abbrev memSize : Nat := 4096

/-- Where a program is loaded and where execution begins (`00_scope.md` R5, `70_reset_and_hazards.md` R191). -/
abbrev progBase : Nat := 0x200

/-- The largest program, 4096 - 0x200 bytes (`00_scope.md` R5). -/
abbrev maxRom : Nat := 3584

/-- DESIGN CHOICE (log entry 2). The random byte of the `k`-th draw: a free value, no body, so nothing can be proved of
what it is (`41_alu.md` R112, `60_exceptions.md` R177, decision D18: any value 0x00 to 0xFF, chosen anew at each
`Cxnn`). The step applies it to the counter `State.rndDraws` and advances the counter. -/
opaque rnd : Nat → Byte

end Config

namespace Machine

/-- A value of the parameter `FONTSET`: 80 bytes (`00_scope.md` R6). The machine's own is the field `State.fontset`; the
default is `Config.defaultFontset` in Machine/Fontset.lean. -/
abbrev Fontset := Vector Byte 80

/-- The keypad: slot `k` is true while key `k` is pressed (`10_state.md` R23). -/
abbrev Keypad := Vector Bool 16

/-- An input event of the core (`60_exceptions.md` R186). The random byte of `Cycle(rnd)` is the free value
`Config.rnd`, so the event carries none here (log entry 2). -/
inductive Event where
  /-- `70_reset_and_hazards.md` R190. -/
  | reset
  /-- `70_reset_and_hazards.md` R193, R194. -/
  | loadRom (data : List Byte)
  /-- `40_flow.md` R80. -/
  | cycle
  /-- `60_exceptions.md` R171. -/
  | tick
  /-- `60_exceptions.md` R175. -/
  | setKeys (keys : Keypad)
  deriving DecidableEq, Repr, Inhabited

end Machine

/-- DESIGN CHOICE (log entry 4). Event `k` of an endless host schedule: a free value, no body, so nothing can be proved of
what it is (decision D20 OPEN, `60_exceptions.md` R173, `70_reset_and_hazards.md` R200: any infinite sequence of the five
events). A claim that needs a Tick or a key to come takes that as a premise about this sequence. -/
opaque Config.hostEvent : Nat → Machine.Event

end Sys2Proof
end

