-- ==== Sys2Proof/Machine/Fontset.lean ====
section
/-! DEFINITION. The default of the parameter `FONTSET` (`10_state.md` R31). -/

namespace Sys2Proof.Config

/-- The table of `10_state.md` R31: the glyph of digit `d` from byte `5 * d`. PRESUMED (log entry 1): the bytes are from
general knowledge, not from the document. -/
def defaultGlyphs : List Byte :=
  [0xF0, 0x90, 0x90, 0x90, 0xF0] ++ -- 0
  [0x20, 0x60, 0x20, 0x20, 0x70] ++ -- 1
  [0xF0, 0x10, 0xF0, 0x80, 0xF0] ++ -- 2
  [0xF0, 0x10, 0xF0, 0x10, 0xF0] ++ -- 3
  [0x90, 0x90, 0xF0, 0x10, 0x10] ++ -- 4
  [0xF0, 0x80, 0xF0, 0x10, 0xF0] ++ -- 5
  [0xF0, 0x80, 0xF0, 0x90, 0xF0] ++ -- 6
  [0xF0, 0x10, 0x20, 0x40, 0x40] ++ -- 7
  [0xF0, 0x90, 0xF0, 0x90, 0xF0] ++ -- 8
  [0xF0, 0x90, 0xF0, 0x10, 0xF0] ++ -- 9
  [0xF0, 0x90, 0xF0, 0x90, 0x90] ++ -- A
  [0xE0, 0x90, 0xE0, 0x90, 0xE0] ++ -- B
  [0xF0, 0x80, 0x80, 0x80, 0xF0] ++ -- C
  [0xE0, 0x90, 0x90, 0x90, 0xE0] ++ -- D
  [0xF0, 0x80, 0xF0, 0x80, 0xF0] ++ -- E
  [0xF0, 0x80, 0xF0, 0x80, 0x80]    -- F

/-- The default of the parameter `FONTSET` (`00_scope.md` R6, decision D21). `State.reset` takes it; no other definition
does, and a machine with another font is `State.resetWith` of that font. -/
def defaultFontset : Machine.Fontset := ⟨defaultGlyphs.toArray, rfl⟩

end Sys2Proof.Config
end

