-- ==== Sys2Proof/Machine/State.lean ====
section
/-! DEFINITION. The whole state of the machine as plain data (`10_state.md` R10 to R26), the reasons a step can stop, and
the state after reset (`10_state.md` R26, `70_reset_and_hazards.md` R190). -/

namespace Sys2Proof.Machine

/-- Main memory as a list of (address, byte) pairs. Machine/Memory.lean says what an unlisted address reads as and what
the canonical form of the list is. -/
abbrev Memory := List Host.Cell

/-- The framebuffer: 32 rows of 64 one-bit pixels (`10_state.md` R22); pixel `(r, c)` is bit `c` of row `r`
(`State.pixel`). -/
abbrev Display := Vector (BitVec 64) 32

/-- The causes the `FAULT` register records (`60_exceptions.md` R160). -/
inductive Cause where
  /-- Fetch outside memory, code 1 (R165). -/
  | fetchOob
  /-- Data access outside memory, code 2 (R166). -/
  | dataOob
  /-- Return with no return address held, code 3 (R167). -/
  | stackUnderflow
  /-- Call with all sixteen entries taken, code 4 (R168). -/
  | stackOverflow
  deriving DecidableEq, Repr

/-- An output event of the core (`60_exceptions.md` R186). No state of the core depends on one (`45_unrecognized.md` R152). -/
inductive Output where
  /-- `Unimpl(pc, op)`: an unrecognized word was executed (R152). -/
  | unimpl (pc op : Word)
  /-- The `RomTooLarge` refusal of LoadRom (`70_reset_and_hazards.md` R194). -/
  | romTooLarge
  deriving DecidableEq, Repr

/-- What the host issues after the last event of `State.schedule` (log entry 4; decision D20: any finite or infinite
sequence of events). -/
inductive Afterwards where
  /-- Cycle events alone. -/
  | cycles
  /-- The listed events again and again, such as the frames of `70_reset_and_hazards.md` R199; Cycle events alone if none
  is listed. -/
  | again (frame : List Event)
  /-- The events of the free endless sequence `Config.hostEvent`, from number `k`. -/
  | free (k : Nat)
  deriving DecidableEq, Repr

/-- The state: the spec's fields (R26), its parameter `FONTSET`, and after them four of the model's own. -/
structure State where
  /-- `V[0]` to `V[15]` (R10, R11). -/
  v : Vector Byte 16
  /-- The index register `I` (R13). -/
  i : Word
  /-- `PC` (R14). -/
  pc : Word
  /-- `SP`, the count of entries pushed, 5 bits (R17). -/
  sp : BitVec 5
  /-- The sixteen return addresses (R18). -/
  stack : Vector Word 16
  /-- The delay timer (R19). -/
  dt : Byte
  /-- The sound timer (R20). -/
  st : Byte
  /-- `FAULT`, 3 bits (R21). -/
  fault : BitVec 3
  /-- The framebuffer (R22). -/
  disp : Display
  /-- The keypad (R23). -/
  keypad : Keypad
  /-- The 4096 bytes of main memory (R24). -/
  mem : Memory
  /-- The parameter `FONTSET` (`00_scope.md` R6, `10_state.md` R31), which the Reset event loads; nothing writes it (log
  entry 1). -/
  fontset : Fontset
  /-- The model's own (log entry 2): how many random bytes have been drawn. -/
  rndDraws : Nat
  /-- The model's own (log entry 3): the output events so far, newest first. -/
  outputs : List Output
  /-- The model's own (log entry 4): the input events the host still issues, in order. -/
  schedule : List Event
  /-- The model's own (log entry 4): what it issues after those. -/
  afterwards : Afterwards
  deriving DecidableEq, Repr

/-- Why a step of the model stops. The four faults of `60_exceptions.md` R160 are NOT here: the spec describes their entry,
so they are next states with `FAULT` set. -/
inductive Fault where
  /-- Raised by `2nnn` and `00EE` when `SP` holds 17 to 31 and the entry they would use does not exist (`stack[i]` is
  defined for `i` in 0 to 15 only, `00_scope.md` R8; those values are unreachable, `10_state.md` R17). Safe: the model
  stops and gives the access no effect (log entry 6). -/
  | stackEntryAbsent
  deriving DecidableEq, Repr

/-- Why a step of the model has no meaning to run. -/
inductive Refusal where
  /-- The instruction named has no meaning in the model yet; raised by an arm of `exec` only. No arm does so now. Safe. -/
  | notModelled (mnemonic : String)
  deriving DecidableEq, Repr

/-- The machine right after Reset (R26, R190), its parameter `FONTSET` given: `PC` 0x200, memory at its reset contents
(nothing listed), everything else zero. The four fields of the model's own are DESIGN CHOICE values (log entries 2, 3, 4):
nothing drawn, nothing output, no event but Cycle to come. -/
def State.resetWith (fontset : Fontset) : State where
  v := Vector.replicate 16 0
  i := 0
  pc := 0x0200
  sp := 0
  stack := Vector.replicate 16 0
  dt := 0
  st := 0
  fault := 0
  disp := Vector.replicate 32 0
  keypad := Vector.replicate 16 false
  mem := []
  fontset := fontset
  rndDraws := 0
  outputs := []
  schedule := []
  afterwards := .cycles

/-- The machine right after Reset with `FONTSET` at its default (`00_scope.md` R6; log entry 1). -/
def State.reset : State := State.resetWith Config.defaultFontset

end Sys2Proof.Machine
end

