-- ==== Sys2Proof/Machine/Memory.lean ====
section
/-! DEFINITION. Main memory (`20_memory.md`): what it holds after reset, reading and writing one byte, the accesses built
from those, and the canonical form of the list that holds it. -/

namespace Sys2Proof.Machine

/-- What an unlisted address reads as: the reset contents, `FONTSET` and then zeros (`10_state.md` R24, R26). -/
def Memory.unlisted (f : Fontset) (a : Nat) : Byte := if h : a < 80 then f[a] else 0

/-- The byte at `a` (`MemRead(a, 1)`, `00_scope.md` R8). Every instruction establishes `a ≤ 0xFFF` first
(`20_memory.md` R49), so the value given above 0xFFF is used by no instruction (log entry 9). -/
def Memory.read (f : Fontset) : Memory → Nat → Byte
  | [], a => Memory.unlisted f a
  | (b, w) :: m, a => if b = a then w else Memory.read f m a

/-- The list without the cell at `a`. -/
def Memory.erase (m : Memory) (a : Nat) : Memory := m.filter fun c => c.1 != a

/-- The list with a cell put where its address belongs. -/
def Memory.insert : Memory → Nat → Byte → Memory
  | [], a, v => [(a, v)]
  | (b, w) :: m, a, v => if a < b then (a, v) :: (b, w) :: m else (b, w) :: Memory.insert m a v

/-- Store `v` at `a` (`MemWrite(a, 1, v)`, `00_scope.md` R8, `20_memory.md` R46): plain storage. A byte equal to what
an unlisted address reads as is not listed. -/
def Memory.write (f : Fontset) (m : Memory) (a : Nat) (v : Byte) : Memory :=
  if v = Memory.unlisted f a then Memory.erase m a else Memory.insert (Memory.erase m a) a v

/-- Store the bytes at ascending addresses from `a` (`20_memory.md` R43). -/
def Memory.writeBytes (f : Fontset) : Memory → Nat → List Byte → Memory
  | m, _, [] => m
  | m, a, b :: bs => Memory.writeBytes f (Memory.write f m a b) (a + 1) bs

/-- The canonical form of a list whose addresses start at `lo` or above. -/
def Memory.wfFrom (f : Fontset) : Nat → Memory → Bool
  | _, [] => true
  | lo, (a, v) :: m => decide (lo ≤ a) && decide (a < Config.memSize) && (v != Memory.unlisted f a) &&
    Memory.wfFrom f (a + 1) m

/-- The canonical form: addresses strictly rising and inside 0x000 to 0xFFF, no entry equal to what an unlisted address
reads as. Equal memories are then equal lists. -/
def Memory.wf (f : Fontset) (m : Memory) : Bool := Memory.wfFrom f 0 m

end Sys2Proof.Machine
end

