-- ==== Sys2Proof/Machine/Operands.lean ====
section
/-! DEFINITION. The operand forms (`30_encoding.md` R63): a general register, an immediate widened to 16 bits, a key number,
the bytes addressed by `I`, a display coordinate. -/

namespace Sys2Proof.Machine

/-- `V[x]` (`00_scope.md` R8). -/
def State.reg (s : State) (x : Reg) : Byte := s.v[x.val]'x.isLt

/-- `V[x] <- b` (`00_scope.md` R8). -/
def State.setReg (s : State) (x : Reg) (b : Byte) : State := { s with v := s.v.set x.val b x.isLt }

/-- `zext_16(nnn)`: the 12-bit immediate as an address or index value (R63). -/
def zextNNN (nnn : BitVec 12) : Word := nnn.setWidth 16

/-- `zext_16(V[x])` where a register meets a 16-bit quantity (R63). -/
def zextByte (b : Byte) : Word := b.setWidth 16

/-- The key number `V[x] mod 16` (`44_keypad_timers.md` R142). -/
def keyNumber (b : Byte) : Fin 16 := Fin.ofNat 16 b.toNat

/-- Is key `k` pressed (`10_state.md` R23)? -/
def State.key (s : State) (k : Fin 16) : Bool := s.keypad[k.val]'k.isLt

/-- The lowest pressed key at or above `k`, looking at `n` keys. -/
def firstKeyFrom (s : State) : Nat → Nat → Option (Fin 16)
  | _, 0 => none
  | k, n + 1 => if s.key (Fin.ofNat 16 k) then some (Fin.ofNat 16 k) else firstKeyFrom s (k + 1) n

/-- The scan of `Fx0A`: keys 0 to 15 in ascending order, the first that is pressed (`44_keypad_timers.md` R143). -/
def State.firstKey (s : State) : Option (Fin 16) := firstKeyFrom s 0 16

/-- The effective address of the `k`-th byte, `I + k` as an exact number: no wrap (`42_index_memory.md` R126,
`20_memory.md` R50). -/
def State.dataAddr (s : State) (k : Nat) : Nat := s.i.toNat + k

/-- The range check of an access whose highest offset is `m` (`42_index_memory.md` R127). -/
def State.dataInRange (s : State) (m : Nat) : Bool := decide (s.dataAddr m ≤ 0xFFF)

/-- `MemRead(a, 1)` (`00_scope.md` R8). -/
def State.read (s : State) (a : Nat) : Byte := Memory.read s.fontset s.mem a

/-- `MemWrite(a + k, 1, bs[k])` for each byte of `bs` in order (`00_scope.md` R8, `20_memory.md` R43). -/
def State.store (s : State) (a : Nat) (bs : List Byte) : State := { s with mem := Memory.writeBytes s.fontset s.mem a bs }

/-- `disp[r][c]` (`00_scope.md` R8, `43_display.md` R130). -/
def Display.pixel (d : Display) (r : Fin 32) (c : Fin 64) : Bool := (d[r.val]'r.isLt).getLsbD c.val

/-- `disp[r][c]` of a state. -/
def State.pixel (s : State) (r : Fin 32) (c : Fin 64) : Bool := Display.pixel s.disp r c

/-- The display row of sprite row `row`: `(V[y] + row) mod 32` (`43_display.md` R130). -/
def screenRow (vy : Byte) (row : Nat) : Fin 32 := Fin.ofNat 32 (vy.toNat + row)

/-- The display column of sprite bit `bit`: `(V[x] + bit) mod 64` (`43_display.md` R130). -/
def screenCol (vx : Byte) (bit : Nat) : Fin 64 := Fin.ofNat 64 (vx.toNat + bit)

/-- Bit `bit` of a sprite byte, counted from the most significant: `b[7 - bit]` (`43_display.md` R132). -/
def spriteBit (b : Byte) (bit : Nat) : Bool := b.getLsbD (7 - bit)

end Sys2Proof.Machine
end

