-- ==== Sys2Proof/Machine/Flags.lean ====
section
/-! DEFINITION. The values written to `VF` as a flag (`10_state.md` R11, `41_alu.md` R113). -/

namespace Sys2Proof.Machine

/-- A flag as the whole byte 0x00 or 0x01 (R11). -/
def flagByte (f : Bool) : Byte := if f then 1 else 0

/-- Carry out of `a + b`: the exact sum exceeds 255 (`41_alu.md` R107). -/
def carryOut (a b : Byte) : Byte := flagByte (decide (a.toNat + b.toNat > 255))

/-- Not-borrow of `a - b`: 1 when `a >= b` (`41_alu.md` R108, R110). -/
def notBorrow (a b : Byte) : Byte := flagByte (decide (a.toNat ≥ b.toNat))

/-- The bit a right shift drops, `a[0]` (`41_alu.md` R109). -/
def shiftedOutLow (a : Byte) : Byte := flagByte (a.getLsbD 0)

/-- The bit a left shift drops, `a[7]` (`41_alu.md` R111). -/
def shiftedOutHigh (a : Byte) : Byte := flagByte (a.getLsbD 7)

/-- `VF <- f` (`10_state.md` R11). -/
def State.setVF (s : State) (f : Byte) : State := s.setReg VF f

end Sys2Proof.Machine
end

