-- ==== Sys2Proof/Machine/Ops.lean ====
section
/-! DEFINITION. The shared operations of the meanings: how a cycle ends, taking a fault, the return stack, the register
block at `I`, the blit, and fetching a word. -/

namespace Sys2Proof.Machine

/-- What an instruction or a step answers. -/
abbrev Result := Host.Outcome State Fault Refusal

/-! ### How a cycle ends (`40_flow.md` R81) -/

/-- `PC <- PC0 + 2` (R81 kind (a)). -/
def State.advance (s : State) : State := { s with pc := s.pc + 2 }

/-- `PC <- c ? PC0 + 4 : PC0 + 2` (R81 kind (b), R90). -/
def State.skipIf (s : State) (c : Bool) : State := { s with pc := if c then s.pc + 4 else s.pc + 2 }

/-- `PC <- target` (R81 kind (c)). -/
def State.jumpTo (s : State) (target : Word) : State := { s with pc := target }

/-! ### Faults (`60_exceptions.md` section 1) -/

/-- The code of a cause (R160). -/
def Cause.code : Cause → BitVec 3
  | .fetchOob => 1
  | .dataOob => 2
  | .stackUnderflow => 3
  | .stackOverflow => 4

/-- Fault entry, `raise Fault(cause)`: `FAULT <- cause` and nothing else (R161). There is no return from a fault but the
Reset event (R163): `resetEvent` in Machine/Events.lean. -/
def raiseFault (c : Cause) (s : State) : Result := .next { s with fault := c.code }

/-- Run `k` if the data access with highest offset `m` stays inside memory, else raise `DATA_OOB` before any effect
(`42_index_memory.md` R127, `60_exceptions.md` R166). -/
def withDataRange (m : Nat) (s : State) (k : State) : Result :=
  if s.dataInRange m then .next k else raiseFault .dataOob s

/-! ### The return stack (`10_state.md` R17, R18) -/

/-- `stack[SP] <- a; SP <- SP + 1`; none where entry `SP` does not exist. -/
def State.push (s : State) (a : Word) : Option State :=
  if h : s.sp.toNat < 16 then some { s with stack := s.stack.set s.sp.toNat a h, sp := s.sp + 1 } else none

/-- `SP <- SP - 1`, and the entry at the new `SP`, which is kept (R18); none where that entry does not exist. -/
def State.pop (s : State) : Option (Word × State) :=
  if h : (s.sp - 1).toNat < 16 then some (s.stack[(s.sp - 1).toNat], { s with sp := s.sp - 1 }) else none

/-! ### The register block at `I` (`42_index_memory.md` R124, R125) -/

/-- `V[0]` to `V[x]`, in that order. -/
def State.regBlock (s : State) (x : Reg) : List Byte := s.v.toList.take (x.val + 1)

/-- The registers after `V[k] <- rd (a + k)` for `k` from 0 to `n - 1`, in that order. -/
def loadBlock (rd : Nat → Byte) (a : Nat) : Nat → Vector Byte 16 → Vector Byte 16
  | 0, v => v
  | n + 1, v => (loadBlock rd a n v).setIfInBounds n (rd (a + n))

/-! ### The blit (`43_display.md` R132) -/

/-- The display and the collision found so far. -/
structure Blit where
  disp : Display
  collision : Bool
  deriving DecidableEq, Repr

/-- Note a collision if the pixel is lit, then toggle it. -/
def Blit.toggle (b : Blit) (r : Fin 32) (c : Fin 64) : Blit where
  disp := b.disp.set r.val ((b.disp[r.val]'r.isLt) ^^^ (1#64 <<< c.val)) r.isLt
  collision := b.collision || Display.pixel b.disp r c

/-- One sprite row: its 8 bits, most significant first. -/
def Blit.row (vx byte : Byte) (r : Fin 32) (b : Blit) : Blit :=
  (List.range 8).foldl (fun b bit => if spriteBit byte bit then b.toggle r (screenCol vx bit) else b) b

/-- The `n` rows of the sprite at `a`, first row first, its bytes read by `rd`. -/
def Blit.sprite (rd : Nat → Byte) (a : Nat) (vx vy : Byte) (n : Nat) (b : Blit) : Blit :=
  (List.range n).foldl (fun b row => b.row vx (rd (a + row)) (screenRow vy row)) b

/-! ### The random byte (`60_exceptions.md` R177) -/

/-- The byte of this draw: the free value (log entry 2). -/
def State.rndByte (s : State) : Byte := Config.rnd s.rndDraws

/-- The draw is used up. -/
def State.drawn (s : State) : State := { s with rndDraws := s.rndDraws + 1 }

/-! ### Output events (`45_unrecognized.md` R152) -/

/-- Emit an output event. -/
def State.emit (s : State) (o : Output) : State := { s with outputs := o :: s.outputs }

/-! ### Fetch (`20_memory.md` R42, R44) -/

/-- `MemRead(PC, 2)`: big-endian, any address. -/
def State.fetchWord (s : State) : Word := wordOfBytes (s.read s.pc.toNat) (s.read (s.pc.toNat + 1))

/-- Can both bytes at `PC` be fetched (`60_exceptions.md` R165)? -/
def State.fetchInRange (s : State) : Bool := decide (s.pc.toNat ≤ 0x0FFE)

/-- The state with a word stored where the next step fetches: at `PC`, or at 0x200 with `PC` set there if `PC` is outside
memory; not halted and no event but Cycle to come, or the next step would not fetch (log entry 5). -/
def State.placeFetchWord (s : State) (w : Word) : State :=
  let pc : Word := if s.fetchInRange then s.pc else 0x0200
  { s.store pc.toNat [highByte w, lowByte w] with
    pc := pc
    fault := 0
    schedule := []
    afterwards := .cycles }

end Sys2Proof.Machine
end

