-- ==== Sys2Proof/Machine/Alu.lean ====
section
/-! DEFINITION. Register load, ALU, shifter and random: `6xnn 7xnn 8xy0` to `8xyE`, `Cxnn` (`41_alu.md`). Every source
operand is read from the state before the instruction; the writes come in the order of the instruction's rule, the later
one standing where both go to `VF` (R100, decision D11). -/

namespace Sys2Proof.Machine

/-- `V[x] <- result` and then `VF <- flag` (R107, R108, R110). -/
def resultThenFlag (x : Reg) (result flag : Byte) (s : State) : Result :=
  .next ((s.setReg x result).setVF flag).advance

/-- `VF <- flag` and then `V[x] <- result` (R109, R111). -/
def flagThenResult (x : Reg) (flag result : Byte) (s : State) : Result :=
  .next ((s.setVF flag).setReg x result).advance

/-- `V[x] <- result` alone. -/
def resultOnly (x : Reg) (result : Byte) (s : State) : Result := .next (s.setReg x result).advance

/-- `6xnn`, `LD Vx, nn` (R101). -/
def execLdImm (x : Reg) (nn : Byte) (s : State) : Result := resultOnly x nn s

/-- `7xnn`, `ADD Vx, nn` (R102): no flag. -/
def execAddImm (x : Reg) (nn : Byte) (s : State) : Result := resultOnly x (s.reg x + nn) s

/-- `8xy0`, `LD Vx, Vy` (R103). -/
def execLdReg (x y : Reg) (s : State) : Result := resultOnly x (s.reg y) s

/-- `8xy1`, `OR Vx, Vy` (R104): `VF` untouched. -/
def execOrReg (x y : Reg) (s : State) : Result := resultOnly x (s.reg x ||| s.reg y) s

/-- `8xy2`, `AND Vx, Vy` (R105): `VF` untouched. -/
def execAndReg (x y : Reg) (s : State) : Result := resultOnly x (s.reg x &&& s.reg y) s

/-- `8xy3`, `XOR Vx, Vy` (R106): `VF` untouched. -/
def execXorReg (x y : Reg) (s : State) : Result := resultOnly x (s.reg x ^^^ s.reg y) s

/-- `8xy4`, `ADD Vx, Vy` (R107). -/
def execAddReg (x y : Reg) (s : State) : Result :=
  resultThenFlag x (s.reg x + s.reg y) (carryOut (s.reg x) (s.reg y)) s

/-- `8xy5`, `SUB Vx, Vy` (R108). -/
def execSubReg (x y : Reg) (s : State) : Result :=
  resultThenFlag x (s.reg x - s.reg y) (notBorrow (s.reg x) (s.reg y)) s

/-- `8xy6`, `SHR Vx` (R109): `y` is ignored. -/
def execShr (x _y : Reg) (s : State) : Result := flagThenResult x (shiftedOutLow (s.reg x)) (s.reg x >>> 1) s

/-- `8xy7`, `SUBN Vx, Vy` (R110). -/
def execSubnReg (x y : Reg) (s : State) : Result :=
  resultThenFlag x (s.reg y - s.reg x) (notBorrow (s.reg y) (s.reg x)) s

/-- `8xyE`, `SHL Vx` (R111): `y` is ignored. -/
def execShl (x _y : Reg) (s : State) : Result := flagThenResult x (shiftedOutHigh (s.reg x)) (s.reg x <<< 1) s

/-- `Cxnn`, `RND Vx, nn` (R112): the random byte is a free value (log entry 2). -/
def execRnd (x : Reg) (nn : Byte) (s : State) : Result := resultOnly x (s.rndByte &&& nn) s.drawn

end Sys2Proof.Machine
end

