-- ==== Sys2Proof/Machine/Flow.lean ====
section
/-! DEFINITION. Control transfer: `00EE 1nnn 2nnn Bnnn 3xnn 4xnn 5xy0 9xy0` (`40_flow.md`). -/

namespace Sys2Proof.Machine

/-- `00EE`, `RET` (R82): pop, then `PC <- stack[SP] + 2`. -/
def execRet (s : State) : Result :=
  if s.sp = 0 then raiseFault .stackUnderflow s
  else match s.pop with
    | some (a, t) => .next (t.jumpTo (a + 2))
    | none => .fault .stackEntryAbsent

/-- `1nnn`, `JP nnn` (R83). -/
def execJp (nnn : BitVec 12) (s : State) : Result := .next (s.jumpTo (zextNNN nnn))

/-- `2nnn`, `CALL nnn` (R84): push the address of this instruction. -/
def execCall (nnn : BitVec 12) (s : State) : Result :=
  if s.sp = 16 then raiseFault .stackOverflow s
  else match s.push s.pc with
    | some t => .next (t.jumpTo (zextNNN nnn))
    | none => .fault .stackEntryAbsent

/-- `Bnnn`, `JP V0, nnn` (R85). -/
def execJpV0 (nnn : BitVec 12) (s : State) : Result := .next (s.jumpTo (zextNNN nnn + zextByte (s.reg 0)))

/-- `3xnn`, `SE Vx, nn` (R86). -/
def execSeImm (x : Reg) (nn : Byte) (s : State) : Result := .next (s.skipIf (s.reg x == nn))

/-- `4xnn`, `SNE Vx, nn` (R87). -/
def execSneImm (x : Reg) (nn : Byte) (s : State) : Result := .next (s.skipIf (s.reg x != nn))

/-- `5xy0`, `SE Vx, Vy` (R88). -/
def execSeReg (x y : Reg) (s : State) : Result := .next (s.skipIf (s.reg x == s.reg y))

/-- `9xy0`, `SNE Vx, Vy` (R89). -/
def execSneReg (x y : Reg) (s : State) : Result := .next (s.skipIf (s.reg x != s.reg y))

end Sys2Proof.Machine
end

