-- ==== Sys2Proof/Machine/Index.lean ====
section
/-! DEFINITION. The index register, the BCD converter, register store and load: `Annn Fx1E Fx29 Fx33 Fx55 Fx65`
(`42_index_memory.md`). `I` is never changed by an access (R126). -/

namespace Sys2Proof.Machine

/-- `I <- a` and `PC <- PC0 + 2`. -/
def loadIndex (a : Word) (s : State) : Result := .next ({ s with i := a } : State).advance

/-- Store bytes from `I` and `PC <- PC0 + 2`, or raise `DATA_OOB`; `m` is the highest offset (R127). -/
def storeAtIndex (m : Nat) (bs : List Byte) (s : State) : Result :=
  withDataRange m s (s.store (s.dataAddr 0) bs).advance

/-- `Annn`, `LD I, nnn` (R120). -/
def execLdI (nnn : BitVec 12) (s : State) : Result := loadIndex (zextNNN nnn) s

/-- `Fx1E`, `ADD I, Vx` (R121): modulo 65536, `VF` untouched. -/
def execAddIVx (x : Reg) (s : State) : Result := loadIndex (s.i + zextByte (s.reg x)) s

/-- `Fx29`, `LD F, Vx` (R122): the whole `V[x]` times 5, in 16 bits. -/
def execLdFVx (x : Reg) (s : State) : Result := loadIndex (5 * zextByte (s.reg x)) s

/-- Hundreds, tens and ones of a byte, a byte each (R123). -/
def bcdDigits (b : Byte) : List Byte :=
  [BitVec.ofNat 8 (b.toNat / 100), BitVec.ofNat 8 (b.toNat / 10 % 10), BitVec.ofNat 8 (b.toNat % 10)]

/-- `Fx33`, `LD B, Vx` (R123). -/
def execLdBVx (x : Reg) (s : State) : Result := storeAtIndex 2 (bcdDigits (s.reg x)) s

/-- `Fx55`, `LD [I], Vx` (R124). -/
def execStoreRegs (x : Reg) (s : State) : Result := storeAtIndex x.val (s.regBlock x) s

/-- `Fx65`, `LD Vx, [I]` (R125). -/
def execLoadRegs (x : Reg) (s : State) : Result :=
  withDataRange x.val s ({ s with v := loadBlock s.read (s.dataAddr 0) (x.val + 1) s.v } : State).advance

end Sys2Proof.Machine
end

