-- ==== Sys2Proof/Machine/KeyTimer.lean ====
section
/-! DEFINITION. Keypad and timer instructions: `Ex9E ExA1 Fx0A Fx07 Fx15 Fx18` (`44_keypad_timers.md`). -/

namespace Sys2Proof.Machine

/-- `Ex9E`, `SKP Vx` (R140). -/
def execSkp (x : Reg) (s : State) : Result := .next (s.skipIf (s.key (keyNumber (s.reg x))))

/-- `ExA1`, `SKNP Vx` (R141). -/
def execSknp (x : Reg) (s : State) : Result := .next (s.skipIf (!s.key (keyNumber (s.reg x))))

/-- `Fx0A`, `LD Vx, K` (R143): with no key pressed nothing changes, `PC` included. -/
def execLdVxK (x : Reg) (s : State) : Result :=
  match s.firstKey with
  | some k => .next (s.setReg x (BitVec.ofNat 8 k.val)).advance
  | none => .next s

/-- `Fx07`, `LD Vx, DT` (R144). -/
def execLdVxDT (x : Reg) (s : State) : Result := .next (s.setReg x s.dt).advance

/-- `Fx15`, `LD DT, Vx` (R145). -/
def execLdDTVx (x : Reg) (s : State) : Result := .next ({ s with dt := s.reg x } : State).advance

/-- `Fx18`, `LD ST, Vx` (R146). -/
def execLdSTVx (x : Reg) (s : State) : Result := .next ({ s with st := s.reg x } : State).advance

end Sys2Proof.Machine
end

