-- ==== Sys2Proof/Machine/Pixel.lean ====
section
/-! DEFINITION. The pixel engine: `00E0 Dxyn` (`43_display.md`). -/

namespace Sys2Proof.Machine

/-- `00E0`, `CLS` (R131): every pixel 0, `VF` not written. -/
def execCls (s : State) : Result := .next ({ s with disp := Vector.replicate 32 0 } : State).advance

/-- The blit a `Dxyn` performs: coordinates and address sampled before any write (R135). -/
def State.blit (s : State) (x y : Reg) (n : Fin 16) : Blit :=
  Blit.sprite s.read (s.dataAddr 0) (s.reg x) (s.reg y) n.val ⟨s.disp, false⟩

/-- The state after a `Dxyn` that does not fault: the toggled display, `VF` the collision. -/
def State.drawn2D (s : State) (x y : Reg) (n : Fin 16) : State :=
  (({ s with disp := (s.blit x y n).disp } : State).setVF (flagByte (s.blit x y n).collision)).advance

/-- `Dxyn`, `DRW Vx, Vy, n` (R132, R134): the range check is made only when `n > 0`. -/
def execDrw (x y : Reg) (n : Fin 16) (s : State) : Result :=
  if n.val = 0 then .next (s.drawn2D x y n) else withDataRange (n.val - 1) s (s.drawn2D x y n)

end Sys2Proof.Machine
end

