-- ==== Sys2Proof/Machine/Unrecognized.lean ====
section
/-! DEFINITION. The words that are no instruction (`45_unrecognized.md`). -/

namespace Sys2Proof.Machine

/-- `emit Unimpl(PC0, op)`, `PC <- PC0 + 2`, nothing else (R150). -/
def execUnknown (op : Word) (s : State) : Result := .next (s.emit (.unimpl s.pc op)).advance

end Sys2Proof.Machine
end

