-- ==== Sys2Proof/Machine/Events.lean ====
section
/-! DEFINITION. The five input events of the core (`60_exceptions.md` R186) and what the host can read of it (R178, R184). -/

namespace Sys2Proof.Machine

/-- One Cycle event (`40_flow.md` R80): a halted core does nothing (step 0, `60_exceptions.md` R162); a fetch outside
memory raises `FETCH_OOB` (step 1, R165); otherwise the fetched word is decoded and executed (steps 2 to 8). -/
def cycle (s : State) : Result :=
  if s.fault ≠ 0 then .next s
  else if s.fetchInRange then exec (decodeWord s.fetchWord) s
  else raiseFault .fetchOob s

/-- The Reset event (`70_reset_and_hazards.md` R190): every piece of the machine's state at its reset value, memory
from the parameter `FONTSET`. The
model's own fields are not the machine's and go on: draws are not repeated, output events are not taken back, the host's
later events still come (log entries 2, 3, 4). -/
def resetEvent (s : State) : State :=
  { State.resetWith s.fontset with
    rndDraws := s.rndDraws, outputs := s.outputs, schedule := s.schedule, afterwards := s.afterwards }

/-- The LoadRom event: copy from 0x200 and touch nothing else (R193), or refuse with `RomTooLarge` (R194). -/
def loadRomEvent (data : List Byte) (s : State) : State :=
  if data.length ≤ Config.maxRom then s.store Config.progBase data
  else s.emit .romTooLarge

/-- A timer after a Tick: one less, and zero stays zero (`60_exceptions.md` R171). -/
def tickTimer (t : Byte) : Byte := if t = 0 then 0 else t - 1

/-- The Tick event (R171). -/
def tickEvent (s : State) : State := { s with dt := tickTimer s.dt, st := tickTimer s.st }

/-- The SetKeys event (R175): all sixteen slots. -/
def setKeysEvent (keys : Keypad) (s : State) : State := { s with keypad := keys }

/-- What one input event does. -/
def applyEvent (e : Event) (s : State) : Result :=
  match e with
  | .reset => .next (resetEvent s)
  | .loadRom data => .next (loadRomEvent data s)
  | .cycle => cycle s
  | .tick => .next (tickEvent s)
  | .setKeys keys => .next (setKeysEvent keys s)

/-- The event the host issues next, and the state with it used up (log entry 4). -/
def State.takeEvent (s : State) : Event × State :=
  match s.schedule, s.afterwards with
  | e :: rest, _ => (e, { s with schedule := rest })
  | [], .cycles => (.cycle, s)
  | [], .again [] => (.cycle, s)
  | [], .again (e :: rest) => (e, { s with schedule := rest })
  | [], .free k => (Config.hostEvent k, { s with afterwards := .free (k + 1) })

/-- The next input event takes place (`70_reset_and_hazards.md` R200: any event at any time between cycles). -/
def nextEvent (s : State) : Result := applyEvent s.takeEvent.1 s.takeEvent.2

/-! ### What the host reads -/

/-- The framebuffer output: rows from row 0, each its 64 pixels from column 0 (`60_exceptions.md` R178). -/
def framebuffer (s : State) : List (List Bool) :=
  (List.finRange 32).map fun r => (List.finRange 64).map fun c => s.pixel r c

/-- The debug snapshot (`60_exceptions.md` R184): the document's list, and the `FAULT` this spec adds to the outputs. -/
structure DebugSnapshot where
  v : Vector Byte 16
  i : Word
  pc : Word
  sp : BitVec 5
  stack : Vector Word 16
  mem : List Byte
  fault : BitVec 3
  deriving DecidableEq, Repr

/-- Reading the snapshot changes nothing (`60_exceptions.md` R185): it is a function of the state. -/
def debugSnapshot (s : State) : DebugSnapshot where
  v := s.v
  i := s.i
  pc := s.pc
  sp := s.sp
  stack := s.stack
  mem := (List.range Config.memSize).map s.read
  fault := s.fault

end Sys2Proof.Machine
end

