-- ==== Sys2Proof/Machine/Step.lean ====
section
/-! DEFINITION. One step of the machine, and placing a word where the next step fetches. -/

namespace Sys2Proof.Machine

/-- One step is the next input event of the core; which the host's schedule says. -/
def step (s : State) : Host.Outcome State Fault Refusal := nextEvent s

/-- `s` with the instruction of bits `w` stored where `step` fetches its next instruction (log entry 5). -/
def State.withFetchWord (s : State) (nbits w : Nat) : State := s.placeFetchWord (BitVec.ofNat 16 (w % 2 ^ nbits))

end Sys2Proof.Machine
end

