-- ==== Sys2Proof/Safety.lean ====
section
/-! DEFINITION. The terms claims are stated in: which parts of the state two states share, which instruction may write
which part and which register, the invariant of every reachable state, the safe state and the finished run. -/

namespace Sys2Proof.Machine

/-! ### Outcomes -/

/-- The next state of an outcome, where there is one. -/
def nextState? : Result → Option State
  | .next s => some s
  | .fault _ => none
  | .refused _ => none

/-! ### Parts of the state and frames -/

/-- The parts of the state (`10_state.md` R26; the last four are the model's own, `fontset` the parameter). -/
inductive Part where
  | v | i | pc | sp | stack | dt | st | fault | disp | keypad | mem | fontset | rndDraws | outputs | schedule | afterwards
  deriving DecidableEq, Repr

/-- The part has the same contents in both states. Memory is compared through the read of one byte. -/
def Part.Same (p : Part) (s t : State) : Prop :=
  match p with
  | .v => ∀ r, t.reg r = s.reg r
  | .i => t.i = s.i
  | .pc => t.pc = s.pc
  | .sp => t.sp = s.sp
  | .stack => t.stack = s.stack
  | .dt => t.dt = s.dt
  | .st => t.st = s.st
  | .fault => t.fault = s.fault
  | .disp => ∀ r c, t.pixel r c = s.pixel r c
  | .keypad => t.keypad = s.keypad
  | .mem => ∀ a, t.read a = s.read a
  | .fontset => t.fontset = s.fontset
  | .rndDraws => t.rndDraws = s.rndDraws
  | .outputs => t.outputs = s.outputs
  | .schedule => t.schedule = s.schedule
  | .afterwards => t.afterwards = s.afterwards

/-- Every part but the listed ones is the same in `t` as in `s`. -/
def Frame (changed : List Part) (s t : State) : Prop := ∀ p, p ∉ changed → p.Same s t

/-- Every general register but the listed ones is the same in `t` as in `s`. -/
def RegsSameBut (changed : List Reg) (s t : State) : Prop := ∀ r, r ∉ changed → t.reg r = s.reg r

/-- Every byte of memory outside the `n` bytes at `a` is the same in `t` as in `s`. -/
def MemSameOutside (a n : Nat) (s t : State) : Prop := ∀ b, b < a ∨ a + n ≤ b → t.read b = s.read b

/-- Every word that `mask` and `pat` select (`30_encoding.md` R66) decodes to `f` of it. -/
def DecodesAs (pat mask : Word) (f : Word → Instr) : Prop := ∀ w : Word, w &&& mask = pat → decodeWord w = f w

/-! ### Access tables -/

/-- The parts an instruction that runs without a fault may write, besides `PC` (`10_state.md` R12, R13, R17 to R23,
`60_exceptions.md` R177, `45_unrecognized.md` R152). -/
def partsWritten : Instr → List Part
  | .cls => [.disp]
  | .ret => [.sp]
  | .call _ => [.sp, .stack]
  | .jp _ | .jpV0 _ | .seImm _ _ | .sneImm _ _ | .seReg _ _ | .sneReg _ _ | .skp _ | .sknp _ => []
  | .ldImm _ _ | .addImm _ _ | .ldReg _ _ | .orReg _ _ | .andReg _ _ | .xorReg _ _ | .addReg _ _ | .subReg _ _
  | .shr _ _ | .subnReg _ _ | .shl _ _ | .ldVxDT _ | .ldVxK _ | .loadRegs _ => [.v]
  | .rnd _ _ => [.v, .rndDraws]
  | .drw _ _ _ => [.v, .disp]
  | .ldI _ | .addIVx _ | .ldFVx _ => [.i]
  | .ldDTVx _ => [.dt]
  | .ldSTVx _ => [.st]
  | .ldBVx _ | .storeRegs _ => [.mem]
  | .unknown _ => [.outputs]

/-- Does the instruction write `VF` as a flag (`10_state.md` R11)? -/
def writesFlag : Instr → Bool
  | .addReg _ _ | .subReg _ _ | .shr _ _ | .subnReg _ _ | .shl _ _ | .drw _ _ _ => true
  | .cls | .ret | .jp _ | .call _ | .seImm _ _ | .sneImm _ _ | .seReg _ _ | .ldImm _ _ | .addImm _ _ | .ldReg _ _
  | .orReg _ _ | .andReg _ _ | .xorReg _ _ | .sneReg _ _ | .ldI _ | .jpV0 _ | .rnd _ _ | .skp _ | .sknp _
  | .ldVxDT _ | .ldVxK _ | .ldDTVx _ | .ldSTVx _ | .addIVx _ | .ldFVx _ | .ldBVx _ | .storeRegs _ | .loadRegs _
  | .unknown _ => false

/-- Does the instruction name register `r` as a destination (the rows 'write `V[x]`' and 'write `V[0]..V[x]`' of
`10_state.md` R12)? -/
def namesDestination : Instr → Reg → Bool
  | .ldImm x _, r | .addImm x _, r | .ldReg x _, r | .orReg x _, r | .andReg x _, r | .xorReg x _, r | .addReg x _, r
  | .subReg x _, r | .shr x _, r | .subnReg x _, r | .shl x _, r | .rnd x _, r | .ldVxDT x, r | .ldVxK x, r => r == x
  | .loadRegs x, r => decide (r ≤ x)
  | .cls, _ | .ret, _ | .jp _, _ | .call _, _ | .seImm _ _, _ | .sneImm _ _, _ | .seReg _ _, _ | .sneReg _ _, _
  | .ldI _, _ | .jpV0 _, _ | .drw _ _ _, _ | .skp _, _ | .sknp _, _ | .ldDTVx _, _ | .ldSTVx _, _ | .addIVx _, _
  | .ldFVx _, _ | .ldBVx _, _ | .storeRegs _, _ | .unknown _, _ => false

/-- Does the instruction read register `r` (the four 'read' rows of `10_state.md` R12)? -/
def readsReg : Instr → Reg → Bool
  | .seImm x _, r | .sneImm x _, r | .addImm x _, r | .shr x _, r | .shl x _, r | .skp x, r | .sknp x, r | .ldDTVx x, r
  | .ldSTVx x, r | .addIVx x, r | .ldFVx x, r | .ldBVx x, r => r == x
  | .ldReg _ y, r => r == y
  | .seReg x y, r | .orReg x y, r | .andReg x y, r | .xorReg x y, r | .addReg x y, r | .subReg x y, r | .subnReg x y, r
  | .sneReg x y, r | .drw x y _, r => r == x || r == y
  | .jpV0 _, r => r == 0
  | .storeRegs x, r => decide (r ≤ x)
  | .cls, _ | .ret, _ | .jp _, _ | .call _, _ | .ldImm _ _, _ | .ldI _, _ | .rnd _ _, _ | .ldVxDT _, _ | .ldVxK _, _
  | .loadRegs _, _ | .unknown _, _ => false

/-- Can the instruction raise a fault (`60_exceptions.md` R160, R164)? -/
def canFault : Instr → Bool
  | .ret | .call _ | .drw _ _ _ | .ldBVx _ | .storeRegs _ | .loadRegs _ => true
  | .cls | .jp _ | .jpV0 _ | .seImm _ _ | .sneImm _ _ | .seReg _ _ | .sneReg _ _ | .ldImm _ _ | .addImm _ _ | .ldReg _ _
  | .orReg _ _ | .andReg _ _ | .xorReg _ _ | .addReg _ _ | .subReg _ _ | .shr _ _ | .subnReg _ _ | .shl _ _ | .rnd _ _
  | .ldI _ | .addIVx _ | .ldFVx _ | .skp _ | .sknp _ | .ldVxDT _ | .ldVxK _ | .ldDTVx _ | .ldSTVx _ | .unknown _ => false

/-- The new `PC` of an instruction that does not fault, as a number (`10_state.md` R15); of a `00EE`, none where no
entry is on the stack. -/
def newPC (i : Instr) (s : State) : Option Nat :=
  match i with
  | .jp nnn | .call nnn => some nnn.toNat
  | .jpV0 nnn => some (nnn.toNat + (s.reg 0).toNat)
  | .ret => (s.stack.toList[s.sp.toNat - 1]?).map fun a => (a.toNat + 2) % 65536
  | .seImm x nn => some ((s.pc.toNat + if s.reg x = nn then 4 else 2) % 65536)
  | .sneImm x nn => some ((s.pc.toNat + if s.reg x ≠ nn then 4 else 2) % 65536)
  | .seReg x y => some ((s.pc.toNat + if s.reg x = s.reg y then 4 else 2) % 65536)
  | .sneReg x y => some ((s.pc.toNat + if s.reg x ≠ s.reg y then 4 else 2) % 65536)
  | .skp x => some ((s.pc.toNat + if s.key (keyNumber (s.reg x)) = true then 4 else 2) % 65536)
  | .sknp x => some ((s.pc.toNat + if s.key (keyNumber (s.reg x)) = false then 4 else 2) % 65536)
  | .ldVxK _ => some ((s.pc.toNat + if ∃ k, s.key k = true then 2 else 0) % 65536)
  | .cls | .ldImm _ _ | .addImm _ _ | .ldReg _ _ | .orReg _ _ | .andReg _ _ | .xorReg _ _ | .addReg _ _ | .subReg _ _
  | .shr _ _ | .subnReg _ _ | .shl _ _ | .ldI _ | .rnd _ _ | .drw _ _ _ | .ldVxDT _ | .ldDTVx _ | .ldSTVx _ | .addIVx _
  | .ldFVx _ | .ldBVx _ | .storeRegs _ | .loadRegs _ | .unknown _ => some ((s.pc.toNat + 2) % 65536)

/-! ### The pixel engine in parallel (`43_display.md` R133) -/

/-- Does row `row`, bit `bit` of the sprite of a `Dxyn` in state `s` land on `(r, c)` with the bit set? -/
def SpriteCovers (s : State) (x y : Reg) (n : Fin 16) (r : Fin 32) (c : Fin 64) : Prop :=
  ∃ row bit : Nat, row < n.val ∧ bit < 8 ∧ ((s.reg y).toNat + row) % 32 = r.val ∧ ((s.reg x).toNat + bit) % 64 = c.val ∧
    (s.read (s.i.toNat + row)).getLsbD (7 - bit) = true

/-! ### Code under a store (`20_memory.md` R54) -/

/-- The byte at `b` once the bytes `bs` lie over those at `a` and after it. -/
def State.byteOver (s : State) (a : Nat) (bs : List Byte) (b : Nat) : Byte :=
  if b < a then s.read b else bs.getD (b - a) (s.read b)

/-- The big-endian word at `b`, the bytes `bs` lying over those at `a` and after it. -/
def State.wordOver (s : State) (a : Nat) (bs : List Byte) (b : Nat) : Word :=
  wordOfBytes (s.byteOver a bs b) (s.byteOver a bs (b + 1))

/-! ### Runs -/

/-- The outcome of `n` steps. -/
def runs : Nat → State → Result
  | 0, s => .next s
  | n + 1, s =>
    match step s with
    | .next t => runs n t
    | .fault f => .fault f
    | .refused r => .refused r

/-! ### Safe states -/

/-- What holds of every reachable state (`10_state.md` R16, R17, R21, R32), and that memory keeps its canonical form. -/
structure State.Inv (s : State) : Prop where
  /-- `PC` holds 0x000 to 0x10FE (R16). -/
  pc_le : s.pc.toNat ≤ 0x10FE
  /-- `0 <= SP <= 16` (R32). -/
  sp_le : s.sp.toNat ≤ 16
  /-- `FAULT` in 0 to 4 (R32). -/
  fault_le : s.fault.toNat ≤ 4
  /-- Every `stack[i]` with `i < SP` is at most 0x0FFE (R32). -/
  stack_le : ∀ k : Fin 16, k.val < s.sp.toNat → (s.stack[k.val]'k.isLt).toNat ≤ 0x0FFE
  /-- Memory is in its canonical form. -/
  mem_wf : s.mem.wf s.fontset = true

/-- No fault has occurred since Reset (`60_exceptions.md` R162: anything else is a bad state that is never final). -/
def State.safe (s : State) : Bool := s.fault == 0

/-- A finished run (`70_reset_and_hazards.md` R201, decision D25): no fault, and the instruction at `PC` is a `1nnn` with
`nnn = PC`. -/
def State.finished (s : State) : Bool :=
  s.safe && s.fetchInRange &&
    match decodeWord s.fetchWord with
    | .jp nnn => zextNNN nnn == s.pc
    | _ => false

end Sys2Proof.Machine
end

