-- ==== Sys2Proof/Certificates/Slice0/Obligations.lean ====
section
/-! DEFINITION. The statements for the provers. Each docstring names the rule of spec/ it formalises, and where a clause is a
decision of the spec (a D of 92_eei_decisions.md) or a choice of the model (a log entry), which one. -/

open Sys2Proof Sys2Proof.Machine

/-! ### Reset, program load, the host's events -/

/-- `10_state.md` R26 and `70_reset_and_hazards.md` R190 (decisions D1, D21): in the reset state of every `FONTSET`, and after
a Reset event in ANY state, every piece of state has its reset value; memory 0x000 to 0x04F is the parameter `FONTSET`, which
the event leaves as it is (log entry 1), the rest of memory zero. The Reset event always completes. -/
def Obligations.ResetPutsEveryPartAtItsValue : Prop :=
  (∀ s : State, ∃ t, applyEvent .reset s = .next t ∧ t.fontset = s.fontset) ∧
  (∀ f : Fontset, (State.resetWith f).fontset = f) ∧
  ∀ t : State, ((∃ f, t = State.resetWith f) ∨ ∃ s, applyEvent .reset s = .next t) →
    (∀ r, t.reg r = 0) ∧ t.i = 0 ∧ t.pc = 0x0200 ∧ t.sp = 0 ∧ (∀ k : Fin 16, t.stack[k.val] = 0) ∧ t.dt = 0 ∧ t.st = 0 ∧
    t.fault = 0 ∧ (∀ r c, t.pixel r c = false) ∧ (∀ k, t.key k = false) ∧
    (∀ a : Fin 80, t.read a.val = t.fontset[a.val]) ∧ (∀ a, 80 ≤ a → a ≤ 0xFFF → t.read a = 0)

/-- `70_reset_and_hazards.md` R193 and R194: an image of at most 3584 bytes is copied to 0x200 and nothing else changes; a
longer one is refused with `RomTooLarge` and changes nothing. The refusal is an output event (`60_exceptions.md` R186); that it
is kept in `State.outputs`, newest first, is the model's choice (log entry 3). -/
def Obligations.LoadRomCopiesOrRefuses : Prop :=
  ∀ (data : List Byte) (s : State),
    (data.length ≤ 3584 → ∃ t, applyEvent (.loadRom data) s = .next t ∧
      (∀ (k : Nat) (h : k < data.length), t.read (0x200 + k) = data[k]) ∧
      MemSameOutside 0x200 data.length s t ∧ Frame [.mem] s t) ∧
    (3584 < data.length → ∃ t, applyEvent (.loadRom data) s = .next t ∧
      t.outputs = .romTooLarge :: s.outputs ∧ Frame [.outputs] s t)

/-- `70_reset_and_hazards.md` R191 and R197 (the boot sequence, which the spec derives): after Reset and a LoadRom of an
image of two bytes or more, the first cycle executes the image's first two bytes, at 0x200, in the boot state. -/
def Obligations.BootRunsTheImageFromItsFirstWord : Prop :=
  ∀ (s : State) (hi lo : Byte) (rest : List Byte), (hi :: lo :: rest).length ≤ 3584 →
    ∃ b t, applyEvent .reset s = .next b ∧ applyEvent (.loadRom (hi :: lo :: rest)) b = .next t ∧ t.pc = 0x0200 ∧
      Frame [.mem] b t ∧ MemSameOutside 0x200 (hi :: lo :: rest).length b t ∧
      cycle t = exec (decodeWord (wordOfBytes hi lo)) t

/-- `60_exceptions.md` R171: each timer goes down by one unless it is zero, in every state (a halted one too); nothing else
changes. -/
def Obligations.TickDecrementsNonzeroTimers : Prop :=
  ∀ s : State, ∃ t, applyEvent .tick s = .next t ∧
    (s.dt ≠ 0 → t.dt.toNat + 1 = s.dt.toNat) ∧ (s.dt = 0 → t.dt = 0) ∧
    (s.st ≠ 0 → t.st.toNat + 1 = s.st.toNat) ∧ (s.st = 0 → t.st = 0) ∧ Frame [.dt, .st] s t

/-- `60_exceptions.md` R175: SetKeys writes all sixteen slots and nothing else, and the core never writes the keypad. -/
def Obligations.SetKeysWritesTheKeypadAndCyclesLeaveIt : Prop :=
  (∀ (keys : Keypad) (s : State), ∃ t, applyEvent (.setKeys keys) s = .next t ∧
    (∀ k : Fin 16, t.key k = keys[k.val]) ∧ Frame [.keypad] s t) ∧
  (∀ s t : State, cycle s = .next t → t.keypad = s.keypad)

/-- `60_exceptions.md` R162 and R163 (decision D3): with `FAULT` nonzero a Cycle changes nothing, the other events act and
leave `FAULT` as it is, and Reset clears it. -/
def Obligations.HaltedCoreWaitsForReset : Prop :=
  ∀ s : State, s.fault ≠ 0 →
    cycle s = .next s ∧ (∀ e, e ≠ .reset → ∃ t, applyEvent e s = .next t ∧ t.fault = s.fault) ∧
    (∃ t, applyEvent .reset s = .next t ∧ t.fault = 0)

/-! ### The step -/

/-- `40_flow.md` R80: where the bytes at `PC` decode to a well-formed instruction and the host's next event is a Cycle, the step
of a core that is not halted is exec of it, the event used up. `takeEvent` is the model's form of the host's schedule (log
entry 4); the last two clauses say it for Cycles alone and for a Cycle at the head of the schedule. -/
def Obligations.StepRunsTheDecodedInstruction : Prop :=
  ∀ (s : State) (i : Instr), s.fault = 0 → s.pc.toNat ≤ 0x0FFE →
    decode [s.read s.pc.toNat, s.read (s.pc.toNat + 1)] = .ok (i, []) → i.wf = true →
    (∀ t, s.takeEvent = (.cycle, t) → step s = exec i t) ∧
    (s.schedule = [] → s.afterwards = .cycles → step s = exec i s) ∧
    (∀ rest, s.schedule = .cycle :: rest → step s = exec i { s with schedule := rest })

/-- The model's form of the host schedule, finite or endless (decision D20, log entry 4): the step is the next event of the
schedule; after the last, a Cycle, or the events of a frame again and again, or the next event of the free endless
sequence. -/
def Obligations.StepTakesTheNextEvent : Prop :=
  ∀ s : State, (∀ e rest, s.schedule = e :: rest → step s = applyEvent e { s with schedule := rest }) ∧
    (s.schedule = [] → (s.afterwards = .cycles ∨ s.afterwards = .again []) → step s = cycle s) ∧
    (∀ e rest, s.schedule = [] → s.afterwards = .again (e :: rest) → step s = applyEvent e { s with schedule := rest }) ∧
    (∀ k, s.schedule = [] → s.afterwards = .free k →
      step s = applyEvent (Config.hostEvent k) { s with afterwards := .free (k + 1) })

/-- `20_memory.md` R42: the byte at `PC` is opcode bits 15:8 and the byte at `PC + 1` is opcode bits 7:0. -/
def Obligations.FetchIsBigEndian : Prop :=
  ∀ s : State, slice s.fetchWord 15 8 = (s.read s.pc.toNat).toNat ∧
    slice s.fetchWord 7 0 = (s.read (s.pc.toNat + 1)).toNat

/-- `60_exceptions.md` R165 and R161 (decision D8): with `PC` above 0xFFE the cycle sets `FAULT` to 1 and changes nothing
else. -/
def Obligations.FetchOutsideMemoryFaults : Prop :=
  ∀ s : State, s.fault = 0 → 0x0FFE < s.pc.toNat → ∃ t, cycle s = .next t ∧ t.fault = 1 ∧ Frame [.fault] s t

/-- `10_state.md` R15: the new `PC` of every instruction, and that a faulting one leaves it (R161, decision D3). -/
def Obligations.EveryInstructionSetsPcAsTabled : Prop :=
  ∀ (i : Instr) (s t : State), s.fault = 0 → exec i s = .next t →
    (t.fault = 0 → newPC i s = some t.pc.toNat) ∧ (t.fault ≠ 0 → t.pc = s.pc)

/-! ### Encoding -/

/-- `30_encoding.md` R62, R66: decoding the word, or the bytes, of a well-formed instruction gives it back. -/
def Obligations.DecodeInvertsEncode : Prop :=
  ∀ i : Instr, i.wf = true → decodeWord (encode i) = i ∧ decode (encodeBytes i) = .ok (i, [])

/-- `30_encoding.md` R66, R68: encoding what a word decodes to gives the word back, its don't-care nibble
cleared (families 5 and 9, decision D16). That the `y` of `8xy6` and `8xyE`, a don't-care too, is a field of the instruction
and stays is the model's choice (log entry 11). -/
def Obligations.EncodeInvertsDecodeUpToDontCares : Prop :=
  ∀ w : Word, encode (decodeWord w) = canonicalWord w

/-- `30_encoding.md` R66, R67: the decoder's procedure selects exactly the row of the opcode map whose mask and match select
the word, so no two rows overlap; a word no row selects is unrecognized. -/
def Obligations.DecoderAgreesWithOpcodeMap : Prop :=
  ∀ w : Word, (∀ row ∈ opcodeMap, row.selects w = true ↔ opcodeRow (decodeWord w) = some row) ∧
    ((∀ row ∈ opcodeMap, row.selects w = false) ↔ decodeWord w = .unknown w)

/-- `30_encoding.md` R64, R67: every word decodes to a well-formed instruction, and to the fallback row exactly in the four
unrecognized classes. -/
def Obligations.EveryWordDecodesWellFormed : Prop :=
  ∀ w : Word, (decodeWord w).wf = true ∧ (decodeWord w = .unknown w ↔ unrecognized w = true)

/-- `95_test_vectors.md` 2.7, V-DEC-1 to V-DEC-8, and S10, S9: words written out and what they are. A sanity statement. -/
def Obligations.SampleWordsDecode : Prop :=
  decodeWord 0x6005 = .ldImm 0 0x05 ∧ decodeWord 0x7003 = .addImm 0 0x03 ∧ decodeWord 0x8AB4 = .addReg 0xA 0xB ∧
  decodeWord 0xD12F = .drw 1 2 0xF ∧ decodeWord 0xF765 = .loadRegs 7 ∧ decodeWord 0x00EE = .ret ∧
  decodeWord 0xBFFF = .jpV0 0xFFF ∧ decodeWord 0x8E76 = .shr 0xE 7 ∧ decodeWord 0xE0A1 = .sknp 0 ∧
  decodeWord 0x1300 = .jp 0x300 ∧ decodeWord 0x00E0 = .cls ∧ decodeWord 0x0123 = .unknown 0x0123

/-! ### Control transfer -/

/-- `40_flow.md` R83: `PC` is `nnn` exactly; a jump to itself changes nothing, and a jump to 0xFFF makes the next cycle raise
`FETCH_OOB`. -/
def Obligations.JumpSetsPcExactly : Prop :=
  DecodesAs 0x1000 0xF000 (fun w => .jp (fieldNNN w)) ∧
  ∀ (nnn : BitVec 12) (s : State), ∃ t, exec (.jp nnn) s = .next t ∧ t.pc.toNat = nnn.toNat ∧ Frame [.pc] s t ∧
    (nnn.toNat = s.pc.toNat → t = s) ∧ (nnn = 0xFFF → s.fault = 0 → ∃ u, cycle t = .next u ∧ u.fault = 1)

/-- `40_flow.md` R84 and R168; that the call faults at sixteen entries is decision D6. -/
def Obligations.CallPushesItsOwnAddress : Prop :=
  DecodesAs 0x2000 0xF000 (fun w => .call (fieldNNN w)) ∧
  ∀ (nnn : BitVec 12) (s : State),
    (s.sp.toNat < 16 → ∃ t, exec (.call nnn) s = .next t ∧
      (∀ k : Fin 16, t.stack[k.val] = if k.val = s.sp.toNat then s.pc else s.stack[k.val]) ∧
      t.sp.toNat = s.sp.toNat + 1 ∧ t.pc.toNat = nnn.toNat ∧ Frame [.pc, .sp, .stack] s t) ∧
    (s.sp.toNat = 16 → ∃ t, exec (.call nnn) s = .next t ∧ t.fault = 4 ∧ Frame [.fault] s t)

/-- `40_flow.md` R82 and R167; that the return faults on an empty stack is decision D5. The entry popped is kept. -/
def Obligations.ReturnPopsAndAddsTwo : Prop :=
  DecodesAs 0x00EE 0xFFFF (fun _ => .ret) ∧
  ∀ s : State,
    (∀ k : Fin 16, s.sp.toNat = k.val + 1 → ∃ t, exec .ret s = .next t ∧ t.sp.toNat = k.val ∧
      t.pc.toNat = (s.stack[k.val].toNat + 2) % 65536 ∧ Frame [.pc, .sp] s t) ∧
    (s.sp.toNat = 0 → ∃ t, exec .ret s = .next t ∧ t.fault = 3 ∧ Frame [.fault] s t)

/-- The model's stop (log entry 6): with `SP` at 17 to 31, values no run reaches, the entry a call or a return would use does
not exist (`00_scope.md` R8: `stack[i]`, `i` in 0 to 15) and the step stops by name. -/
def Obligations.CallAndReturnStopWhereNoEntryExists : Prop :=
  ∀ (nnn : BitVec 12) (s : State), 16 < s.sp.toNat →
    exec (.call nnn) s = .fault .stackEntryAbsent ∧ exec .ret s = .fault .stackEntryAbsent

/-- `40_flow.md` R82, R84, R91: a return whose stack is as a call left it resumes at the instruction after the call, with the
stack as deep as before it. -/
def Obligations.ReturnResumesAfterTheCall : Prop :=
  ∀ (nnn : BitVec 12) (s t u : State), s.sp.toNat < 16 → exec (.call nnn) s = .next t → u.sp = t.sp → u.stack = t.stack →
    ∃ w, exec .ret u = .next w ∧ w.pc = s.pc + 2 ∧ w.sp = s.sp

/-- `40_flow.md` R85: the sum is exact; that it is kept and not reduced is derived by the spec. -/
def Obligations.JumpWithOffsetAddsV0 : Prop :=
  DecodesAs 0xB000 0xF000 (fun w => .jpV0 (fieldNNN w)) ∧
  ∀ (nnn : BitVec 12) (s : State), ∃ t, exec (.jpV0 nnn) s = .next t ∧
    t.pc.toNat = nnn.toNat + (s.reg 0).toNat ∧ Frame [.pc] s t

/-- `40_flow.md` R86 and R87. -/
def Obligations.SkipsOnImmediate : Prop :=
  DecodesAs 0x3000 0xF000 (fun w => .seImm (fieldX w) (fieldNN w)) ∧
  DecodesAs 0x4000 0xF000 (fun w => .sneImm (fieldX w) (fieldNN w)) ∧
  ∀ (x : Reg) (nn : Byte) (s : State),
    (∃ t, exec (.seImm x nn) s = .next t ∧ (s.reg x = nn → t.pc = s.pc + 4) ∧ (s.reg x ≠ nn → t.pc = s.pc + 2) ∧
      Frame [.pc] s t) ∧
    (∃ t, exec (.sneImm x nn) s = .next t ∧ (s.reg x ≠ nn → t.pc = s.pc + 4) ∧ (s.reg x = nn → t.pc = s.pc + 2) ∧
      Frame [.pc] s t)

/-- `40_flow.md` R88 and R89; that the low nibble of the word is not examined is decision D16. -/
def Obligations.SkipsOnRegisters : Prop :=
  DecodesAs 0x5000 0xF000 (fun w => .seReg (fieldX w) (fieldY w)) ∧
  DecodesAs 0x9000 0xF000 (fun w => .sneReg (fieldX w) (fieldY w)) ∧
  ∀ (x y : Reg) (s : State),
    (∃ t, exec (.seReg x y) s = .next t ∧ (s.reg x = s.reg y → t.pc = s.pc + 4) ∧
      (s.reg x ≠ s.reg y → t.pc = s.pc + 2) ∧ Frame [.pc] s t) ∧
    (∃ t, exec (.sneReg x y) s = .next t ∧ (s.reg x ≠ s.reg y → t.pc = s.pc + 4) ∧
      (s.reg x = s.reg y → t.pc = s.pc + 2) ∧ Frame [.pc] s t)

/-- `44_keypad_timers.md` R140, R141, R142; that the key number is taken modulo 16 is decision D10. -/
def Obligations.SkipsOnKeys : Prop :=
  DecodesAs 0xE09E 0xF0FF (fun w => .skp (fieldX w)) ∧ DecodesAs 0xE0A1 0xF0FF (fun w => .sknp (fieldX w)) ∧
  ∀ (x : Reg) (k : Fin 16) (s : State), k.val = (s.reg x).toNat % 16 →
    (∃ t, exec (.skp x) s = .next t ∧ (s.key k = true → t.pc = s.pc + 4) ∧ (s.key k = false → t.pc = s.pc + 2) ∧
      Frame [.pc] s t) ∧
    (∃ t, exec (.sknp x) s = .next t ∧ (s.key k = false → t.pc = s.pc + 4) ∧ (s.key k = true → t.pc = s.pc + 2) ∧
      Frame [.pc] s t)

/-! ### Register load, ALU, shifter, random -/

/-- `41_alu.md` R101 and R103. -/
def Obligations.LoadsOfRegisters : Prop :=
  DecodesAs 0x6000 0xF000 (fun w => .ldImm (fieldX w) (fieldNN w)) ∧
  DecodesAs 0x8000 0xF00F (fun w => .ldReg (fieldX w) (fieldY w)) ∧
  ∀ (x y : Reg) (nn : Byte) (s : State),
    (∃ t, exec (.ldImm x nn) s = .next t ∧ t.reg x = nn ∧ t.pc = s.pc + 2 ∧ RegsSameBut [x] s t ∧ Frame [.v, .pc] s t) ∧
    (∃ t, exec (.ldReg x y) s = .next t ∧ t.reg x = s.reg y ∧ t.pc = s.pc + 2 ∧ RegsSameBut [x] s t ∧ Frame [.v, .pc] s t)

/-- `41_alu.md` R102: `VF` is not written, whatever the sum. -/
def Obligations.AddImmediateWrapsWithoutFlag : Prop :=
  DecodesAs 0x7000 0xF000 (fun w => .addImm (fieldX w) (fieldNN w)) ∧
  ∀ (x : Reg) (nn : Byte) (s : State), ∃ t, exec (.addImm x nn) s = .next t ∧
    (t.reg x).toNat = ((s.reg x).toNat + nn.toNat) % 256 ∧ t.pc = s.pc + 2 ∧ RegsSameBut [x] s t ∧ Frame [.v, .pc] s t

/-- `41_alu.md` R104, R105, R106: `VF` is not written. -/
def Obligations.LogicOperationsLeaveVF : Prop :=
  DecodesAs 0x8001 0xF00F (fun w => .orReg (fieldX w) (fieldY w)) ∧
  DecodesAs 0x8002 0xF00F (fun w => .andReg (fieldX w) (fieldY w)) ∧
  DecodesAs 0x8003 0xF00F (fun w => .xorReg (fieldX w) (fieldY w)) ∧
  ∀ (x y : Reg) (s : State),
    (∃ t, exec (.orReg x y) s = .next t ∧
      (∀ k, (t.reg x).getLsbD k = ((s.reg x).getLsbD k || (s.reg y).getLsbD k)) ∧
      t.pc = s.pc + 2 ∧ RegsSameBut [x] s t ∧ Frame [.v, .pc] s t) ∧
    (∃ t, exec (.andReg x y) s = .next t ∧
      (∀ k, (t.reg x).getLsbD k = ((s.reg x).getLsbD k && (s.reg y).getLsbD k)) ∧
      t.pc = s.pc + 2 ∧ RegsSameBut [x] s t ∧ Frame [.v, .pc] s t) ∧
    (∃ t, exec (.xorReg x y) s = .next t ∧
      (∀ k, (t.reg x).getLsbD k = ((s.reg x).getLsbD k ^^ (s.reg y).getLsbD k)) ∧
      t.pc = s.pc + 2 ∧ RegsSameBut [x] s t ∧ Frame [.v, .pc] s t)

/-- `41_alu.md` R107: the sum modulo 256 and then the carry; with `x = F` the carry is what remains in `VF`. -/
def Obligations.AddSetsCarry : Prop :=
  DecodesAs 0x8004 0xF00F (fun w => .addReg (fieldX w) (fieldY w)) ∧
  ∀ (x y : Reg) (s : State), ∃ t, exec (.addReg x y) s = .next t ∧
    (x ≠ VF → (t.reg x).toNat = ((s.reg x).toNat + (s.reg y).toNat) % 256) ∧
    (t.reg VF).toNat = (if (s.reg x).toNat + (s.reg y).toNat > 255 then 1 else 0) ∧
    t.pc = s.pc + 2 ∧ RegsSameBut [x, VF] s t ∧ Frame [.v, .pc] s t

/-- `41_alu.md` R108 and R110: the difference modulo 256 and then the not-borrow; with `x = F` the flag is what remains. -/
def Obligations.SubtractionsSetNotBorrow : Prop :=
  DecodesAs 0x8005 0xF00F (fun w => .subReg (fieldX w) (fieldY w)) ∧
  DecodesAs 0x8007 0xF00F (fun w => .subnReg (fieldX w) (fieldY w)) ∧
  ∀ (x y : Reg) (s : State),
    (∃ t, exec (.subReg x y) s = .next t ∧
      (x ≠ VF → ((t.reg x).toNat : Int) = ((s.reg x).toNat - (s.reg y).toNat : Int) % 256) ∧
      (t.reg VF).toNat = (if (s.reg x).toNat ≥ (s.reg y).toNat then 1 else 0) ∧
      t.pc = s.pc + 2 ∧ RegsSameBut [x, VF] s t ∧ Frame [.v, .pc] s t) ∧
    (∃ t, exec (.subnReg x y) s = .next t ∧
      (x ≠ VF → ((t.reg x).toNat : Int) = ((s.reg y).toNat - (s.reg x).toNat : Int) % 256) ∧
      (t.reg VF).toNat = (if (s.reg y).toNat ≥ (s.reg x).toNat then 1 else 0) ∧
      t.pc = s.pc + 2 ∧ RegsSameBut [x, VF] s t ∧ Frame [.v, .pc] s t)

/-- `41_alu.md` R109, R111: `y` is ignored; with `x = F` the shifted value is what remains in `VF`, which is decision
D11. -/
def Obligations.ShiftsByOne : Prop :=
  DecodesAs 0x8006 0xF00F (fun w => .shr (fieldX w) (fieldY w)) ∧
  DecodesAs 0x800E 0xF00F (fun w => .shl (fieldX w) (fieldY w)) ∧
  ∀ (x y : Reg) (s : State),
    (∃ t, exec (.shr x y) s = .next t ∧ (t.reg x).toNat = (s.reg x).toNat / 2 ∧
      (x ≠ VF → (t.reg VF).toNat = (s.reg x).toNat % 2) ∧
      t.pc = s.pc + 2 ∧ RegsSameBut [x, VF] s t ∧ Frame [.v, .pc] s t) ∧
    (∃ t, exec (.shl x y) s = .next t ∧ (t.reg x).toNat = 2 * (s.reg x).toNat % 256 ∧
      (x ≠ VF → (t.reg VF).toNat = (s.reg x).toNat / 128) ∧
      t.pc = s.pc + 2 ∧ RegsSameBut [x, VF] s t ∧ Frame [.v, .pc] s t)

/-- `41_alu.md` R112, `60_exceptions.md` R177 (decision D18, log entry 2): the result is the draw's free value masked, one draw
is used up, and no bit outside the mask is set. -/
def Obligations.RandomByteIsDrawnAndMasked : Prop :=
  DecodesAs 0xC000 0xF000 (fun w => .rnd (fieldX w) (fieldNN w)) ∧
  ∀ (x : Reg) (nn : Byte) (s : State), ∃ t, exec (.rnd x nn) s = .next t ∧
    (∀ k, (t.reg x).getLsbD k = ((Config.rnd s.rndDraws).getLsbD k && nn.getLsbD k)) ∧ t.rndDraws = s.rndDraws + 1 ∧
    t.pc = s.pc + 2 ∧ RegsSameBut [x] s t ∧ Frame [.v, .pc, .rndDraws] s t

/-- `41_alu.md` R114 (decision D11): the final values where a register field of a flag-writing operation is `F`; `f` is `VF`
before, `x` and `y` name other registers. -/
def Obligations.VfAsOperandOfFlagWriters : Prop :=
  ∀ (x y : Reg) (s : State) (f : Nat), x ≠ VF → y ≠ VF → f = (s.reg VF).toNat →
    (∀ t, exec (.addReg VF y) s = .next t → (t.reg VF).toNat = if f + (s.reg y).toNat > 255 then 1 else 0) ∧
    (∀ t, exec (.addReg x VF) s = .next t → (t.reg x).toNat = ((s.reg x).toNat + f) % 256 ∧
      (t.reg VF).toNat = if (s.reg x).toNat + f > 255 then 1 else 0) ∧
    (∀ t, exec (.addReg VF VF) s = .next t → (t.reg VF).toNat = f / 128) ∧
    (∀ t, exec (.subReg VF y) s = .next t → (t.reg VF).toNat = if f ≥ (s.reg y).toNat then 1 else 0) ∧
    (∀ t, exec (.subReg x VF) s = .next t → (t.reg x).toNat = ((s.reg x).toNat + 256 - f) % 256 ∧
      (t.reg VF).toNat = if (s.reg x).toNat ≥ f then 1 else 0) ∧
    (∀ t, exec (.subReg VF VF) s = .next t → (t.reg VF).toNat = 1) ∧
    (∀ t, exec (.subnReg VF y) s = .next t → (t.reg VF).toNat = if (s.reg y).toNat ≥ f then 1 else 0) ∧
    (∀ t, exec (.subnReg x VF) s = .next t → (t.reg x).toNat = (f + 256 - (s.reg x).toNat) % 256 ∧
      (t.reg VF).toNat = if f ≥ (s.reg x).toNat then 1 else 0) ∧
    (∀ t, exec (.subnReg VF VF) s = .next t → (t.reg VF).toNat = 1) ∧
    (∀ t, exec (.shr x VF) s = .next t → (t.reg x).toNat = (s.reg x).toNat / 2 ∧
      (t.reg VF).toNat = (s.reg x).toNat % 2) ∧
    (∀ t, exec (.shl x VF) s = .next t → (t.reg x).toNat = 2 * (s.reg x).toNat % 256 ∧
      (t.reg VF).toNat = (s.reg x).toNat / 128) ∧
    (∀ z t, exec (.shr VF z) s = .next t → (t.reg VF).toNat = f / 2) ∧
    (∀ z t, exec (.shl VF z) s = .next t → (t.reg VF).toNat = 2 * f % 256)

/-! ### Index register, BCD, register store and load -/

/-- `42_index_memory.md` R120. -/
def Obligations.LoadIndexImmediate : Prop :=
  DecodesAs 0xA000 0xF000 (fun w => .ldI (fieldNNN w)) ∧
  ∀ (nnn : BitVec 12) (s : State), ∃ t, exec (.ldI nnn) s = .next t ∧ t.i.toNat = nnn.toNat ∧ t.pc = s.pc + 2 ∧
    Frame [.i, .pc] s t

/-- `42_index_memory.md` R121, R122: the sum wraps modulo 65536 (decision D13), the product is of the whole `V[x]` (decision
D14); `VF` is not written. -/
def Obligations.IndexArithmetic : Prop :=
  DecodesAs 0xF01E 0xF0FF (fun w => .addIVx (fieldX w)) ∧ DecodesAs 0xF029 0xF0FF (fun w => .ldFVx (fieldX w)) ∧
  ∀ (x : Reg) (s : State),
    (∃ t, exec (.addIVx x) s = .next t ∧ t.i.toNat = (s.i.toNat + (s.reg x).toNat) % 65536 ∧ t.pc = s.pc + 2 ∧
      Frame [.i, .pc] s t) ∧
    (∃ t, exec (.ldFVx x) s = .next t ∧ t.i.toNat = 5 * (s.reg x).toNat ∧ t.pc = s.pc + 2 ∧ Frame [.i, .pc] s t)

/-- `42_index_memory.md` R123, R126, R127: three digits from the byte addressed by `I`, or, decision D7, the fault before any
byte is written. -/
def Obligations.BcdStoresThreeDigits : Prop :=
  DecodesAs 0xF033 0xF0FF (fun w => .ldBVx (fieldX w)) ∧
  ∀ (x : Reg) (s : State),
    (s.i.toNat + 2 ≤ 0xFFF → ∃ t, exec (.ldBVx x) s = .next t ∧
      (t.read (s.dataAddr 0)).toNat = (s.reg x).toNat / 100 ∧
      (t.read (s.dataAddr 1)).toNat = (s.reg x).toNat / 10 % 10 ∧
      (t.read (s.dataAddr 2)).toNat = (s.reg x).toNat % 10 ∧
      MemSameOutside (s.dataAddr 0) 3 s t ∧ t.pc = s.pc + 2 ∧ Frame [.mem, .pc] s t) ∧
    (0xFFF < s.i.toNat + 2 → ∃ t, exec (.ldBVx x) s = .next t ∧ t.fault = 2 ∧ Frame [.fault] s t)

/-- `42_index_memory.md` R124, R126, R127: `V[0]` to `V[x]` from the byte addressed by `I`, or, decision D7, the fault before
any byte is written. -/
def Obligations.RegisterStoreWritesBlock : Prop :=
  DecodesAs 0xF055 0xF0FF (fun w => .storeRegs (fieldX w)) ∧
  ∀ (x : Reg) (s : State),
    (s.i.toNat + x.val ≤ 0xFFF → ∃ t, exec (.storeRegs x) s = .next t ∧
      (∀ k : Reg, k ≤ x → t.read (s.dataAddr k.val) = s.reg k) ∧
      MemSameOutside (s.dataAddr 0) (x.val + 1) s t ∧ t.pc = s.pc + 2 ∧ Frame [.mem, .pc] s t) ∧
    (0xFFF < s.i.toNat + x.val → ∃ t, exec (.storeRegs x) s = .next t ∧ t.fault = 2 ∧ Frame [.fault] s t)

/-- `42_index_memory.md` R125, R126, R127: `V[0]` to `V[x]` from the byte addressed by `I`, or, decision D7, the fault before
any register is loaded. -/
def Obligations.RegisterLoadReadsBlock : Prop :=
  DecodesAs 0xF065 0xF0FF (fun w => .loadRegs (fieldX w)) ∧
  ∀ (x : Reg) (s : State),
    (s.i.toNat + x.val ≤ 0xFFF → ∃ t, exec (.loadRegs x) s = .next t ∧
      (∀ k : Reg, t.reg k = if k ≤ x then s.read (s.dataAddr k.val) else s.reg k) ∧
      t.pc = s.pc + 2 ∧ Frame [.v, .pc] s t) ∧
    (0xFFF < s.i.toNat + x.val → ∃ t, exec (.loadRegs x) s = .next t ∧ t.fault = 2 ∧ Frame [.fault] s t)

/-- `42_index_memory.md` R125 and `95_test_vectors.md` S8: what `Fx55` stored, an `Fx65` with the same `I` and memory loads
back, for every register up to the smaller of the two counts. -/
def Obligations.StoreThenLoadRestoresRegisters : Prop :=
  ∀ (x y : Reg) (s t u : State), s.i.toNat + x.val ≤ 0xFFF → exec (.storeRegs x) s = .next t → u.i = t.i →
    (∀ a, u.read a = t.read a) → y ≤ x →
    ∃ w, exec (.loadRegs y) u = .next w ∧ ∀ k : Reg, k ≤ y → w.reg k = s.reg k

/-- `20_memory.md` R54 (derived there): whatever bytes an `Fx55`, an `Fx33` or a LoadRom stores, the next fetch, wherever it
is, reads those of them that lie at its two addresses, and the bytes of before at the others. -/
def Obligations.StoredCodeIsFetchedAtOnce : Prop :=
  (∀ (x : Reg) (s t : State), s.fault = 0 → s.i.toNat + x.val ≤ 0xFFF → exec (.storeRegs x) s = .next t →
    t.pc.toNat ≤ 0x0FFE → cycle t = exec (decodeWord (s.wordOver (s.dataAddr 0) (s.regBlock x) t.pc.toNat)) t) ∧
  (∀ (x : Reg) (s t : State), s.fault = 0 → s.i.toNat + 2 ≤ 0xFFF → exec (.ldBVx x) s = .next t →
    t.pc.toNat ≤ 0x0FFE → cycle t = exec (decodeWord (s.wordOver (s.dataAddr 0) (bcdDigits (s.reg x)) t.pc.toNat)) t) ∧
  (∀ (data : List Byte) (s t : State), s.fault = 0 → data.length ≤ 3584 → applyEvent (.loadRom data) s = .next t →
    t.pc.toNat ≤ 0x0FFE → cycle t = exec (decodeWord (s.wordOver 0x200 data t.pc.toNat)) t)

/-! ### Pixel engine -/

/-- `43_display.md` R131. -/
def Obligations.ClearDisplayLeavesVF : Prop :=
  DecodesAs 0x00E0 0xFFFF (fun _ => .cls) ∧
  ∀ s : State, ∃ t, exec .cls s = .next t ∧ (∀ r c, t.pixel r c = false) ∧ t.pc = s.pc + 2 ∧ Frame [.disp, .pc] s t

/-- `43_display.md` R132 to R135: the draw, pixel by pixel in its loops, equals the parallel form (which the spec derives); `VF`
is 1 exactly when a covered pixel was lit; the coordinates are those before the instruction (decision D12); a draw of no
rows touches no memory and cannot fault. -/
def Obligations.DrawEqualsParallelForm : Prop :=
  DecodesAs 0xD000 0xF000 (fun w => .drw (fieldX w) (fieldY w) (fieldN w)) ∧
  ∀ (x y : Reg) (n : Fin 16) (s : State), (n.val = 0 ∨ s.i.toNat + n.val - 1 ≤ 0xFFF) →
    ∃ t, exec (.drw x y n) s = .next t ∧
      (∀ r c, t.pixel r c = true ↔ ¬ (s.pixel r c = true ↔ SpriteCovers s x y n r c)) ∧
      ((∃ r c, SpriteCovers s x y n r c ∧ s.pixel r c = true) → t.reg VF = 1) ∧
      ((¬ ∃ r c, SpriteCovers s x y n r c ∧ s.pixel r c = true) → t.reg VF = 0) ∧
      t.pc = s.pc + 2 ∧ RegsSameBut [VF] s t ∧ Frame [.v, .disp, .pc] s t

/-- `60_exceptions.md` R166, `42_index_memory.md` R127 (decision D7): a draw whose rows reach beyond memory faults before `VF`
is cleared and before any pixel changes. -/
def Obligations.DrawOutsideMemoryFaults : Prop :=
  ∀ (x y : Reg) (n : Fin 16) (s : State), 0 < n.val → 0xFFF < s.i.toNat + n.val - 1 →
    ∃ t, exec (.drw x y n) s = .next t ∧ t.fault = 2 ∧ Frame [.fault] s t

/-- `43_display.md` R136 (derived there from R133): the same draw a second time, with the same coordinates, the same `I`, the
same sprite bytes and no display write between, restores the display; `VF` is then 1 exactly when the sprite covers a pixel
that was not lit before the first. With `x = F` or `y = F` the coordinates are the same only if the first draw left `VF`. -/
def Obligations.DrawTwiceRestoresDisplay : Prop :=
  ∀ (x y : Reg) (n : Fin 16) (s t t' u : State), (n.val = 0 ∨ s.i.toNat + n.val - 1 ≤ 0xFFF) →
    exec (.drw x y n) s = .next t →
    t'.reg x = s.reg x → t'.reg y = s.reg y → t'.i = s.i →
    (∀ k, k < n.val → t'.read (s.i.toNat + k) = s.read (s.i.toNat + k)) → (∀ r c, t'.pixel r c = t.pixel r c) →
    exec (.drw x y n) t' = .next u →
    (∀ r c, u.pixel r c = s.pixel r c) ∧
    (u.reg VF = 1 ↔ ∃ r c, SpriteCovers s x y n r c ∧ s.pixel r c = false)

/-! ### Keypad, timers, unrecognized words -/

/-- `44_keypad_timers.md` R143: the lowest pressed key completes the wait; with none pressed nothing changes at all. -/
def Obligations.KeyWaitTakesLowestKeyOrStalls : Prop :=
  DecodesAs 0xF00A 0xF0FF (fun w => .ldVxK (fieldX w)) ∧
  ∀ (x : Reg) (s : State),
    (∀ k : Fin 16, s.key k = true → (∀ j, j < k → s.key j = false) → ∃ t, exec (.ldVxK x) s = .next t ∧
      (t.reg x).toNat = k.val ∧ t.pc = s.pc + 2 ∧ RegsSameBut [x] s t ∧ Frame [.v, .pc] s t) ∧
    ((∀ k, s.key k = false) → exec (.ldVxK x) s = .next s)

/-- `44_keypad_timers.md` R144, R145, R146. -/
def Obligations.TimerMoves : Prop :=
  DecodesAs 0xF007 0xF0FF (fun w => .ldVxDT (fieldX w)) ∧ DecodesAs 0xF015 0xF0FF (fun w => .ldDTVx (fieldX w)) ∧
  DecodesAs 0xF018 0xF0FF (fun w => .ldSTVx (fieldX w)) ∧
  ∀ (x : Reg) (s : State),
    (∃ t, exec (.ldVxDT x) s = .next t ∧ t.reg x = s.dt ∧ t.pc = s.pc + 2 ∧ RegsSameBut [x] s t ∧ Frame [.v, .pc] s t) ∧
    (∃ t, exec (.ldDTVx x) s = .next t ∧ t.dt = s.reg x ∧ t.pc = s.pc + 2 ∧ Frame [.dt, .pc] s t) ∧
    (∃ t, exec (.ldSTVx x) s = .next t ∧ t.st = s.reg x ∧ t.pc = s.pc + 2 ∧ Frame [.st, .pc] s t)

/-- `45_unrecognized.md` R150: every word of the four classes of R67 is reported with its address and skipped; nothing else
changes (decisions D17, D19). That the report is kept in `State.outputs`, newest first, is the model's choice (log entry
3). -/
def Obligations.UnrecognizedIsReportedNoOp : Prop :=
  (∀ w : Word, unrecognized w = true → decodeWord w = .unknown w) ∧
  ∀ (op : Word) (s : State), ∃ t, exec (.unknown op) s = .next t ∧ t.outputs = .unimpl s.pc op :: s.outputs ∧
    t.pc = s.pc + 2 ∧ Frame [.outputs, .pc] s t

/-! ### Whole-machine rules -/

/-- `60_exceptions.md` R160, R161, R164 (decisions D3 to D8, D27): an instruction that faults changes `FAULT` and nothing else,
and raises only the cause its rule names, under its condition. -/
def Obligations.FaultsArePreciseAndOfTheNamedCause : Prop :=
  ∀ (i : Instr) (s t : State), s.fault = 0 → exec i s = .next t → t.fault ≠ 0 →
    t = { s with fault := t.fault } ∧
    ((i = .ret ∧ t.fault = 3 ∧ s.sp.toNat = 0) ∨ ((∃ nnn, i = .call nnn) ∧ t.fault = 4 ∧ s.sp.toNat = 16) ∨
     (t.fault = 2 ∧ ((∃ x y n, i = .drw x y n ∧ 0 < n.val ∧ 0xFFF < s.i.toNat + n.val - 1) ∨
       (∃ x, i = .ldBVx x ∧ 0xFFF < s.i.toNat + 2) ∨
       (∃ x, (i = .storeRegs x ∨ i = .loadRegs x) ∧ 0xFFF < s.i.toNat + x.val))))

/-- `10_state.md` R13, R17 to R23: an instruction writes only the parts its row lists, and `PC`; or it faults and writes
`FAULT` alone. -/
def Obligations.InstructionsWriteOnlyTheirParts : Prop :=
  ∀ (i : Instr) (s t : State), exec i s = .next t →
    Frame (.pc :: partsWritten i) s t ∨ (canFault i = true ∧ Frame [.fault] s t)

/-- `10_state.md` R11, R12: a general register changes only where the instruction names it as a destination or writes it as the
flag. -/
def Obligations.RegistersChangeOnlyAsTabled : Prop :=
  ∀ (i : Instr) (s t : State) (r : Reg), exec i s = .next t → namesDestination i r = false →
    (r ≠ VF ∨ writesFlag i = false) → t.reg r = s.reg r

/-- `10_state.md` R12, the 'read' rows: a register an instruction does not read has no influence on anything the instruction
does; it is overwritten with the same value, or keeps its own. For `Cxnn`, that both runs meet the same random
byte is the model's choice (log entry 2). -/
def Obligations.UnreadRegistersHaveNoInfluence : Prop :=
  ∀ (i : Instr) (s t : State) (r : Reg) (b : Byte), readsReg i r = false → exec i s = .next t →
    ∃ u, exec i (s.setReg r b) = .next u ∧ Frame [.v] t u ∧ RegsSameBut [r] t u ∧ (u.reg r = t.reg r ∨ u.reg r = b)

/-- `44_keypad_timers.md` R147, `10_state.md` R20: no instruction reads the sound timer. For `Cxnn`, that both runs
meet the same random byte is the model's choice (log entry 2). -/
def Obligations.SoundTimerHasNoInfluence : Prop :=
  ∀ (i : Instr) (s t : State) (b : Byte), exec i s = .next t →
    ∃ u, exec i { s with st := b } = .next u ∧ Frame [.st] t u ∧ (u.st = t.st ∨ u.st = b)

/-- `70_reset_and_hazards.md` R201 (decision D25): a finished run is a state no Cycle changes. -/
def Obligations.FinishedRunIsFixed : Prop :=
  ∀ s : State, s.finished = true → cycle s = .next s ∧ s.fault = 0

/-! ### Invariants -/

/-- `10_state.md` R16, R32 (derived there) hold after reset, and reset memory is in canonical form. -/
def Obligations.ResetMeetsTheInvariant : Prop := State.reset.Inv

/-- `10_state.md` R16, R32: every step keeps the invariant, whatever event it is. -/
def Obligations.StepKeepsTheInvariant : Prop :=
  ∀ s t : State, s.Inv → step s = .next t → t.Inv

/-- No stop in a state that meets the invariant: the step always answers a next state (`60_exceptions.md` R169: no operation
aborts; the four faults are next states, R161). Without the invariant a `2nnn` or a `00EE` with `SP` above 16 stops, which is
the model's choice (log entry 6). -/
def Obligations.InvariantStatesNeverStop : Prop :=
  ∀ s : State, s.Inv → ∃ t, step s = .next t

/-! ### Liveness -/

/-- `60_exceptions.md` R171, R173 and `70_reset_and_hazards.md` R200, R201 (decision D20): a host that issues a frame of events
for ever, with a Tick in it and no Reset or LoadRom, brings both timers to zero in at most 255 frames, once the program has
come to its end (R201) or the core has halted (R162). The Tick is the fairness premise that R200 asks a claim to name. -/
def Obligations.TimersRunOutUnderAnEndlessFrame : Prop :=
  ∀ (s : State) (frame : List Event), (s.finished = true ∨ s.fault ≠ 0) → s.schedule = [] → s.afterwards = .again frame →
    .tick ∈ frame → .reset ∉ frame → (∀ data, .loadRom data ∉ frame) →
    ∃ n t, n ≤ 255 * frame.length ∧ runs n s = .next t ∧ t.dt = 0 ∧ t.st = 0
end

