-- ==== Sys2Proof/Laws/Decode.lean ====
section
/-! SUPPORT. The fields of a packed word, format by format, and the bytes of a word. -/

namespace Sys2Proof

/-! ### Format NNN -/

theorem slice_family_packNNN (f : Nat) (nnn : BitVec 12) (hf : f < 16) : slice (packNNN f nnn) 15 12 = f := by
  have := nnn.isLt
  simp only [slice, packNNN, BitVec.toNat_ofNat]; omega

theorem slice_nnn_packNNN (f : Nat) (nnn : BitVec 12) : slice (packNNN f nnn) 11 0 = nnn.toNat := by
  have := nnn.isLt
  simp only [slice, packNNN, BitVec.toNat_ofNat]; omega

/-! ### Format XNN -/

theorem slice_family_packXNN (f : Nat) (x : Reg) (nn : Byte) (hf : f < 16) : slice (packXNN f x nn) 15 12 = f := by
  have := nn.isLt; have := x.isLt
  simp only [slice, packXNN, BitVec.toNat_ofNat]; omega

theorem slice_x_packXNN (f : Nat) (x : Reg) (nn : Byte) : slice (packXNN f x nn) 11 8 = x.val := by
  have := nn.isLt; have := x.isLt
  simp only [slice, packXNN, BitVec.toNat_ofNat]; omega

theorem slice_nn_packXNN (f : Nat) (x : Reg) (nn : Byte) : slice (packXNN f x nn) 7 0 = nn.toNat := by
  have := nn.isLt; have := x.isLt
  simp only [slice, packXNN, BitVec.toNat_ofNat]; omega

/-! ### Format XYN -/

theorem slice_family_packXYN (f : Nat) (x y : Reg) (n : Fin 16) (hf : f < 16) : slice (packXYN f x y n) 15 12 = f := by
  have := n.isLt; have := x.isLt; have := y.isLt
  simp only [slice, packXYN, BitVec.toNat_ofNat]; omega

theorem slice_x_packXYN (f : Nat) (x y : Reg) (n : Fin 16) : slice (packXYN f x y n) 11 8 = x.val := by
  have := n.isLt; have := x.isLt; have := y.isLt
  simp only [slice, packXYN, BitVec.toNat_ofNat]; omega

theorem slice_y_packXYN (f : Nat) (x y : Reg) (n : Fin 16) : slice (packXYN f x y n) 7 4 = y.val := by
  have := n.isLt; have := x.isLt; have := y.isLt
  simp only [slice, packXYN, BitVec.toNat_ofNat]; omega

theorem slice_n_packXYN (f : Nat) (x y : Reg) (n : Fin 16) : slice (packXYN f x y n) 3 0 = n.val := by
  have := n.isLt; have := x.isLt; have := y.isLt
  simp only [slice, packXYN, BitVec.toNat_ofNat]; omega

/-! ### Bytes of a word -/

/-- Two bytes joined and split again (`20_memory.md` R42). -/
theorem wordOfBytes_high_low (w : Word) : wordOfBytes (highByte w) (lowByte w) = w := by
  have := w.isLt
  apply BitVec.eq_of_toNat_eq
  simp only [wordOfBytes, highByte, lowByte, slice, BitVec.toNat_ofNat]; omega

theorem family_lt (w : Word) : family w < 16 := by simp only [family, slice]; omega

/-- What the decoder reads of the bytes of a word. -/
theorem decode_bytes (w : Word) (rest : List Byte) :
    decode (highByte w :: lowByte w :: rest) = .ok (decodeWord w, rest) := by
  simp [decode, wordOfBytes_high_low]

end Sys2Proof
end

