-- ==== Sys2Proof/Laws/Memory.lean ====
section
/-! SUPPORT. The laws of main memory: a read after a write, and that every operation keeps the canonical form. -/

namespace Sys2Proof.Machine

variable {f : Fontset}

theorem Memory.read_nil (a : Nat) : Memory.read f [] a = Memory.unlisted f a := rfl

theorem Memory.read_cons (b : Nat) (w : Byte) (m : Memory) (a : Nat) :
    Memory.read f ((b, w) :: m) a = if b = a then w else Memory.read f m a := rfl

/-! ### Reads after writes: of every list, canonical or not -/

theorem Memory.read_erase (m : Memory) (a k : Nat) :
    (Memory.erase m a).read f k = if k = a then Memory.unlisted f a else m.read f k := by
  induction m with
  | nil => by_cases h : k = a <;> simp [Memory.erase, Memory.read, h]
  | cons c m ih =>
    obtain ⟨b, w⟩ := c
    unfold Memory.erase at ih ⊢
    by_cases hb : b = a
    · subst hb
      simp only [List.filter_cons, bne_self_eq_false, Bool.false_eq_true, if_false, ih, Memory.read_cons]
      by_cases hk : k = b
      · simp [hk]
      · simp [hk, Ne.symm hk]
    · have : (b != a) = true := by simpa using hb
      simp only [List.filter_cons, this, if_true, Memory.read_cons, ih]
      by_cases hk : k = a
      · subst hk; simp [hb]
      · simp [hk]

theorem Memory.read_insert (m : Memory) (a : Nat) (v : Byte) (k : Nat) (h : ∀ c ∈ m, c.1 ≠ a) :
    (Memory.insert m a v).read f k = if k = a then v else m.read f k := by
  induction m with
  | nil =>
    by_cases hk : k = a
    · simp [Memory.insert, Memory.read, hk]
    · simp [Memory.insert, Memory.read, hk, Ne.symm hk]
  | cons c m ih =>
    obtain ⟨b, w⟩ := c
    have hb : b ≠ a := h (b, w) (by simp)
    have ih := ih fun c hc => h c (by simp [hc])
    by_cases hlt : a < b
    · simp only [Memory.insert, hlt, if_true, Memory.read_cons a]
      by_cases hk : k = a
      · simp [hk]
      · simp [hk, Ne.symm hk]
    · simp only [Memory.insert, hlt, if_false, Memory.read_cons, ih]
      by_cases hk : k = a
      · subst hk; simp [hb]
      · simp [hk]

/-- A read after a write: the byte written at its address, every other byte as before. -/
@[simp] theorem Memory.read_write (m : Memory) (a : Nat) (v : Byte) (k : Nat) :
    (m.write f a v).read f k = if k = a then v else m.read f k := by
  unfold Memory.write
  split
  · next h => rw [Memory.read_erase, h]
  · rw [Memory.read_insert]
    · rw [Memory.read_erase]
      by_cases hk : k = a <;> simp [hk]
    · intro c hc
      simpa [Memory.erase] using (List.mem_filter.mp hc).2

theorem Memory.read_write_self (m : Memory) (a : Nat) (v : Byte) : (m.write f a v).read f a = v := by simp

theorem Memory.read_write_ne (m : Memory) (a : Nat) (v : Byte) {k : Nat} (h : k ≠ a) :
    (m.write f a v).read f k = m.read f k := by simp [h]

/-- A read after a store of bytes at ascending addresses. -/
theorem Memory.read_writeBytes (bs : List Byte) : ∀ (m : Memory) (a k : Nat),
    (m.writeBytes f a bs).read f k = if h : a ≤ k ∧ k - a < bs.length then bs[k - a]'h.2 else m.read f k := by
  induction bs with
  | nil => intro m a k; simp [Memory.writeBytes]
  | cons b bs ih =>
    intro m a k
    simp only [Memory.writeBytes, ih, Memory.read_write]
    by_cases hk : k = a
    · subst hk; simp
    · by_cases hlt : a ≤ k
      · obtain ⟨j, rfl⟩ : ∃ j, k = a + 1 + j := ⟨k - a - 1, by omega⟩
        have e1 : a + 1 + j - (a + 1) = j := by omega
        have e2 : a + 1 + j - a = j + 1 := by omega
        simp only [e1, e2, List.length_cons, List.getElem_cons_succ]
        by_cases hj : j < bs.length <;> simp [hj] <;> omega
      · have h1 : ¬ (a + 1 ≤ k ∧ k - (a + 1) < bs.length) := by omega
        have h2 : ¬ (a ≤ k ∧ k - a < (b :: bs).length) := by omega
        rw [dif_neg h1, dif_neg h2, if_neg hk]

/-- The byte stored at offset `j`. -/
theorem Memory.read_writeBytes_at (m : Memory) (a : Nat) (bs : List Byte) (j : Nat) (h : j < bs.length) :
    (m.writeBytes f a bs).read f (a + j) = bs[j] := by
  rw [Memory.read_writeBytes, dif_pos (by omega)]
  congr 1; omega

/-- Outside the bytes stored nothing changes. -/
theorem Memory.read_writeBytes_outside (m : Memory) (a : Nat) (bs : List Byte) {k : Nat}
    (h : k < a ∨ a + bs.length ≤ k) : (m.writeBytes f a bs).read f k = m.read f k := by
  rw [Memory.read_writeBytes, dif_neg (by omega)]

/-! ### The canonical form -/

theorem Memory.wfFrom_mono {m : Memory} {lo lo' : Nat} (h : Memory.wfFrom f lo m = true) (hl : lo' ≤ lo) :
    Memory.wfFrom f lo' m = true := by
  cases m with
  | nil => rfl
  | cons c m =>
    obtain ⟨a, v⟩ := c
    simp only [Memory.wfFrom, Bool.and_eq_true, decide_eq_true_eq] at h ⊢
    exact ⟨⟨⟨by omega, h.1.1.2⟩, h.1.2⟩, h.2⟩

theorem Memory.wfFrom_erase (m : Memory) (a : Nat) : ∀ lo, Memory.wfFrom f lo m = true → Memory.wfFrom f lo (m.erase a) = true := by
  induction m with
  | nil => intro lo _; rfl
  | cons c m ih =>
    obtain ⟨b, w⟩ := c
    intro lo h
    simp only [Memory.wfFrom, Bool.and_eq_true, decide_eq_true_eq] at h
    have ih := ih (b + 1) h.2
    unfold Memory.erase at ih ⊢
    by_cases hb : b = a
    · subst hb
      simp only [List.filter_cons, bne_self_eq_false, Bool.false_eq_true, if_false]
      exact Memory.wfFrom_mono ih (by omega)
    · have : (b != a) = true := by simpa using hb
      simp only [List.filter_cons, this, if_true, Memory.wfFrom, Bool.and_eq_true, decide_eq_true_eq]
      exact ⟨h.1, ih⟩

theorem Memory.wfFrom_insert (a : Nat) (v : Byte) (ha : a < Config.memSize) (hv : v ≠ Memory.unlisted f a) (m : Memory) :
    ∀ lo, lo ≤ a → (∀ c ∈ m, c.1 ≠ a) → Memory.wfFrom f lo m = true → Memory.wfFrom f lo (m.insert a v) = true := by
  induction m with
  | nil =>
    intro lo hlo _ _
    simp [Memory.insert, Memory.wfFrom, hlo, ha, hv]
  | cons c m ih =>
    obtain ⟨b, w⟩ := c
    intro lo hlo hne h
    have hb : b ≠ a := hne (b, w) (by simp)
    simp only [Memory.wfFrom, Bool.and_eq_true, decide_eq_true_eq] at h
    by_cases hlt : a < b
    · simp only [Memory.insert, hlt, if_true, Memory.wfFrom, Bool.and_eq_true, decide_eq_true_eq, bne_iff_ne]
      exact ⟨⟨⟨hlo, ha⟩, hv⟩, ⟨⟨by omega, h.1.1.2⟩, by simpa using h.1.2⟩, h.2⟩
    · simp only [Memory.insert, hlt, if_false, Memory.wfFrom, Bool.and_eq_true, decide_eq_true_eq]
      exact ⟨h.1, ih (b + 1) (by omega) (fun c hc => hne c (by simp [hc])) h.2⟩

/-- A write inside memory keeps the canonical form. -/
theorem Memory.wf_write {m : Memory} {a : Nat} {v : Byte} (h : m.wf f = true) (ha : a < Config.memSize) :
    (m.write f a v).wf f = true := by
  unfold Memory.write Memory.wf at *
  split
  · exact Memory.wfFrom_erase m a 0 h
  · next hv =>
    refine Memory.wfFrom_insert a v ha hv _ 0 (by omega) ?_ (Memory.wfFrom_erase m a 0 h)
    intro c hc
    simpa [Memory.erase] using (List.mem_filter.mp hc).2

/-- A store of bytes inside memory keeps the canonical form. -/
theorem Memory.wf_writeBytes (bs : List Byte) : ∀ {m : Memory} {a : Nat}, m.wf f = true → a + bs.length ≤ Config.memSize →
    (m.writeBytes f a bs).wf f = true := by
  induction bs with
  | nil => intro m a h _; simpa [Memory.writeBytes] using h
  | cons b bs ih =>
    intro m a h hl
    simp only [List.length_cons] at hl
    exact ih (Memory.wf_write h (by omega)) (by omega)

theorem Memory.wf_nil : Memory.wf f [] = true := rfl

/-! ### Equal memories are equal lists -/

theorem Memory.read_of_lt {m : Memory} : ∀ {lo a : Nat}, Memory.wfFrom f lo m = true → a < lo → m.read f a = Memory.unlisted f a := by
  induction m with
  | nil => intro lo a _ _; rfl
  | cons c m ih =>
    obtain ⟨b, w⟩ := c
    intro lo a h ha
    simp only [Memory.wfFrom, Bool.and_eq_true, decide_eq_true_eq] at h
    rw [Memory.read_cons, if_neg (by omega)]
    exact ih h.2 (by omega)

theorem Memory.ext_from {m m' : Memory} : ∀ {lo : Nat}, Memory.wfFrom f lo m = true → Memory.wfFrom f lo m' = true →
    (∀ a, m.read f a = m'.read f a) → m = m' := by
  induction m generalizing m' with
  | nil =>
    intro lo _ h' he
    cases m' with
    | nil => rfl
    | cons c m' =>
      obtain ⟨b, w⟩ := c
      simp only [Memory.wfFrom, Bool.and_eq_true, decide_eq_true_eq, bne_iff_ne] at h'
      have := he b
      simp only [Memory.read_nil, Memory.read_cons, if_true] at this
      exact absurd this.symm h'.1.2
  | cons c m ih =>
    obtain ⟨a, v⟩ := c
    intro lo h h' he
    simp only [Memory.wfFrom, Bool.and_eq_true, decide_eq_true_eq, bne_iff_ne] at h
    cases m' with
    | nil =>
      have := he a
      simp only [Memory.read_nil, Memory.read_cons, if_true] at this
      exact absurd this h.1.2
    | cons c' m' =>
      obtain ⟨b, w⟩ := c'
      simp only [Memory.wfFrom, Bool.and_eq_true, decide_eq_true_eq, bne_iff_ne] at h'
      have hab : a = b := by
        rcases Nat.lt_trichotomy a b with hlt | heq | hgt
        · have := he a
          rw [Memory.read_cons, if_pos rfl, Memory.read_cons, if_neg (by omega),
            Memory.read_of_lt h'.2 (by omega)] at this
          exact absurd this h.1.2
        · exact heq
        · have := he b
          rw [Memory.read_cons, if_neg (by omega), Memory.read_of_lt h.2 (by omega), Memory.read_cons,
            if_pos rfl] at this
          exact absurd this.symm h'.1.2
      subst hab
      have hvw : v = w := by simpa [Memory.read_cons] using he a
      subst hvw
      rw [ih h.2 h'.2 fun k => ?_]
      by_cases hk : a = k
      · subst hk; rw [Memory.read_of_lt h.2 (by omega), Memory.read_of_lt h'.2 (by omega)]
      · simpa [Memory.read_cons, hk] using he k

/-- Two canonical memories with the same byte at every address are the same list. -/
theorem Memory.ext_of_wf {m m' : Memory} (h : m.wf f = true) (h' : m'.wf f = true) (he : ∀ a, m.read f a = m'.read f a) : m = m' :=
  Memory.ext_from h h' he

end Sys2Proof.Machine
end

