-- ==== Sys2Proof/Laws/State.lean ====
section
/-! SUPPORT. One lemma per field per update of State, true by rfl, and the registers and pixels through their accessors. No
later proof unfolds a record update. -/

namespace Sys2Proof.Machine

/-! ### `State.setReg` (Machine/Operands.lean, `V[x] <- b`) -/

theorem State.setReg_v (s : State) (x : Reg) (b : Byte) : (s.setReg x b).v = s.v.set x.val b x.isLt := rfl
@[simp] theorem State.setReg_i (s : State) (x : Reg) (b : Byte) : (s.setReg x b).i = s.i := rfl
@[simp] theorem State.setReg_pc (s : State) (x : Reg) (b : Byte) : (s.setReg x b).pc = s.pc := rfl
@[simp] theorem State.setReg_sp (s : State) (x : Reg) (b : Byte) : (s.setReg x b).sp = s.sp := rfl
@[simp] theorem State.setReg_stack (s : State) (x : Reg) (b : Byte) : (s.setReg x b).stack = s.stack := rfl
@[simp] theorem State.setReg_dt (s : State) (x : Reg) (b : Byte) : (s.setReg x b).dt = s.dt := rfl
@[simp] theorem State.setReg_st (s : State) (x : Reg) (b : Byte) : (s.setReg x b).st = s.st := rfl
@[simp] theorem State.setReg_fault (s : State) (x : Reg) (b : Byte) : (s.setReg x b).fault = s.fault := rfl
@[simp] theorem State.setReg_disp (s : State) (x : Reg) (b : Byte) : (s.setReg x b).disp = s.disp := rfl
@[simp] theorem State.setReg_keypad (s : State) (x : Reg) (b : Byte) : (s.setReg x b).keypad = s.keypad := rfl
@[simp] theorem State.setReg_mem (s : State) (x : Reg) (b : Byte) : (s.setReg x b).mem = s.mem := rfl
@[simp] theorem State.setReg_fontset (s : State) (x : Reg) (b : Byte) : (s.setReg x b).fontset = s.fontset := rfl
@[simp] theorem State.setReg_rndDraws (s : State) (x : Reg) (b : Byte) : (s.setReg x b).rndDraws = s.rndDraws := rfl
@[simp] theorem State.setReg_outputs (s : State) (x : Reg) (b : Byte) : (s.setReg x b).outputs = s.outputs := rfl
@[simp] theorem State.setReg_schedule (s : State) (x : Reg) (b : Byte) : (s.setReg x b).schedule = s.schedule := rfl
@[simp] theorem State.setReg_afterwards (s : State) (x : Reg) (b : Byte) : (s.setReg x b).afterwards = s.afterwards := rfl

/-! ### `State.setVF` (Machine/Flags.lean, `VF <- f`) -/

theorem State.setVF_v (s : State) (f : Byte) : (s.setVF f).v = s.v.set 15 f := rfl
@[simp] theorem State.setVF_i (s : State) (f : Byte) : (s.setVF f).i = s.i := rfl
@[simp] theorem State.setVF_pc (s : State) (f : Byte) : (s.setVF f).pc = s.pc := rfl
@[simp] theorem State.setVF_sp (s : State) (f : Byte) : (s.setVF f).sp = s.sp := rfl
@[simp] theorem State.setVF_stack (s : State) (f : Byte) : (s.setVF f).stack = s.stack := rfl
@[simp] theorem State.setVF_dt (s : State) (f : Byte) : (s.setVF f).dt = s.dt := rfl
@[simp] theorem State.setVF_st (s : State) (f : Byte) : (s.setVF f).st = s.st := rfl
@[simp] theorem State.setVF_fault (s : State) (f : Byte) : (s.setVF f).fault = s.fault := rfl
@[simp] theorem State.setVF_disp (s : State) (f : Byte) : (s.setVF f).disp = s.disp := rfl
@[simp] theorem State.setVF_keypad (s : State) (f : Byte) : (s.setVF f).keypad = s.keypad := rfl
@[simp] theorem State.setVF_mem (s : State) (f : Byte) : (s.setVF f).mem = s.mem := rfl
@[simp] theorem State.setVF_fontset (s : State) (f : Byte) : (s.setVF f).fontset = s.fontset := rfl
@[simp] theorem State.setVF_rndDraws (s : State) (f : Byte) : (s.setVF f).rndDraws = s.rndDraws := rfl
@[simp] theorem State.setVF_outputs (s : State) (f : Byte) : (s.setVF f).outputs = s.outputs := rfl
@[simp] theorem State.setVF_schedule (s : State) (f : Byte) : (s.setVF f).schedule = s.schedule := rfl
@[simp] theorem State.setVF_afterwards (s : State) (f : Byte) : (s.setVF f).afterwards = s.afterwards := rfl

/-! ### `State.advance` (Machine/Ops.lean, `PC <- PC0 + 2`) -/

@[simp] theorem State.advance_v (s : State) : (s.advance).v = s.v := rfl
@[simp] theorem State.advance_i (s : State) : (s.advance).i = s.i := rfl
@[simp] theorem State.advance_pc (s : State) : (s.advance).pc = s.pc + 2 := rfl
@[simp] theorem State.advance_sp (s : State) : (s.advance).sp = s.sp := rfl
@[simp] theorem State.advance_stack (s : State) : (s.advance).stack = s.stack := rfl
@[simp] theorem State.advance_dt (s : State) : (s.advance).dt = s.dt := rfl
@[simp] theorem State.advance_st (s : State) : (s.advance).st = s.st := rfl
@[simp] theorem State.advance_fault (s : State) : (s.advance).fault = s.fault := rfl
@[simp] theorem State.advance_disp (s : State) : (s.advance).disp = s.disp := rfl
@[simp] theorem State.advance_keypad (s : State) : (s.advance).keypad = s.keypad := rfl
@[simp] theorem State.advance_mem (s : State) : (s.advance).mem = s.mem := rfl
@[simp] theorem State.advance_fontset (s : State) : (s.advance).fontset = s.fontset := rfl
@[simp] theorem State.advance_rndDraws (s : State) : (s.advance).rndDraws = s.rndDraws := rfl
@[simp] theorem State.advance_outputs (s : State) : (s.advance).outputs = s.outputs := rfl
@[simp] theorem State.advance_schedule (s : State) : (s.advance).schedule = s.schedule := rfl
@[simp] theorem State.advance_afterwards (s : State) : (s.advance).afterwards = s.afterwards := rfl

/-! ### `State.skipIf` (Machine/Ops.lean, a skip) -/

@[simp] theorem State.skipIf_v (s : State) (c : Bool) : (s.skipIf c).v = s.v := rfl
@[simp] theorem State.skipIf_i (s : State) (c : Bool) : (s.skipIf c).i = s.i := rfl
@[simp] theorem State.skipIf_pc (s : State) (c : Bool) : (s.skipIf c).pc = (if c then s.pc + 4 else s.pc + 2) := rfl
@[simp] theorem State.skipIf_sp (s : State) (c : Bool) : (s.skipIf c).sp = s.sp := rfl
@[simp] theorem State.skipIf_stack (s : State) (c : Bool) : (s.skipIf c).stack = s.stack := rfl
@[simp] theorem State.skipIf_dt (s : State) (c : Bool) : (s.skipIf c).dt = s.dt := rfl
@[simp] theorem State.skipIf_st (s : State) (c : Bool) : (s.skipIf c).st = s.st := rfl
@[simp] theorem State.skipIf_fault (s : State) (c : Bool) : (s.skipIf c).fault = s.fault := rfl
@[simp] theorem State.skipIf_disp (s : State) (c : Bool) : (s.skipIf c).disp = s.disp := rfl
@[simp] theorem State.skipIf_keypad (s : State) (c : Bool) : (s.skipIf c).keypad = s.keypad := rfl
@[simp] theorem State.skipIf_mem (s : State) (c : Bool) : (s.skipIf c).mem = s.mem := rfl
@[simp] theorem State.skipIf_fontset (s : State) (c : Bool) : (s.skipIf c).fontset = s.fontset := rfl
@[simp] theorem State.skipIf_rndDraws (s : State) (c : Bool) : (s.skipIf c).rndDraws = s.rndDraws := rfl
@[simp] theorem State.skipIf_outputs (s : State) (c : Bool) : (s.skipIf c).outputs = s.outputs := rfl
@[simp] theorem State.skipIf_schedule (s : State) (c : Bool) : (s.skipIf c).schedule = s.schedule := rfl
@[simp] theorem State.skipIf_afterwards (s : State) (c : Bool) : (s.skipIf c).afterwards = s.afterwards := rfl

/-! ### `State.jumpTo` (Machine/Ops.lean, `PC <- target`) -/

@[simp] theorem State.jumpTo_v (s : State) (a : Word) : (s.jumpTo a).v = s.v := rfl
@[simp] theorem State.jumpTo_i (s : State) (a : Word) : (s.jumpTo a).i = s.i := rfl
@[simp] theorem State.jumpTo_pc (s : State) (a : Word) : (s.jumpTo a).pc = a := rfl
@[simp] theorem State.jumpTo_sp (s : State) (a : Word) : (s.jumpTo a).sp = s.sp := rfl
@[simp] theorem State.jumpTo_stack (s : State) (a : Word) : (s.jumpTo a).stack = s.stack := rfl
@[simp] theorem State.jumpTo_dt (s : State) (a : Word) : (s.jumpTo a).dt = s.dt := rfl
@[simp] theorem State.jumpTo_st (s : State) (a : Word) : (s.jumpTo a).st = s.st := rfl
@[simp] theorem State.jumpTo_fault (s : State) (a : Word) : (s.jumpTo a).fault = s.fault := rfl
@[simp] theorem State.jumpTo_disp (s : State) (a : Word) : (s.jumpTo a).disp = s.disp := rfl
@[simp] theorem State.jumpTo_keypad (s : State) (a : Word) : (s.jumpTo a).keypad = s.keypad := rfl
@[simp] theorem State.jumpTo_mem (s : State) (a : Word) : (s.jumpTo a).mem = s.mem := rfl
@[simp] theorem State.jumpTo_fontset (s : State) (a : Word) : (s.jumpTo a).fontset = s.fontset := rfl
@[simp] theorem State.jumpTo_rndDraws (s : State) (a : Word) : (s.jumpTo a).rndDraws = s.rndDraws := rfl
@[simp] theorem State.jumpTo_outputs (s : State) (a : Word) : (s.jumpTo a).outputs = s.outputs := rfl
@[simp] theorem State.jumpTo_schedule (s : State) (a : Word) : (s.jumpTo a).schedule = s.schedule := rfl
@[simp] theorem State.jumpTo_afterwards (s : State) (a : Word) : (s.jumpTo a).afterwards = s.afterwards := rfl

/-! ### `State.drawn` (Machine/Ops.lean, a random byte used up) -/

@[simp] theorem State.drawn_v (s : State) : (s.drawn).v = s.v := rfl
@[simp] theorem State.drawn_i (s : State) : (s.drawn).i = s.i := rfl
@[simp] theorem State.drawn_pc (s : State) : (s.drawn).pc = s.pc := rfl
@[simp] theorem State.drawn_sp (s : State) : (s.drawn).sp = s.sp := rfl
@[simp] theorem State.drawn_stack (s : State) : (s.drawn).stack = s.stack := rfl
@[simp] theorem State.drawn_dt (s : State) : (s.drawn).dt = s.dt := rfl
@[simp] theorem State.drawn_st (s : State) : (s.drawn).st = s.st := rfl
@[simp] theorem State.drawn_fault (s : State) : (s.drawn).fault = s.fault := rfl
@[simp] theorem State.drawn_disp (s : State) : (s.drawn).disp = s.disp := rfl
@[simp] theorem State.drawn_keypad (s : State) : (s.drawn).keypad = s.keypad := rfl
@[simp] theorem State.drawn_mem (s : State) : (s.drawn).mem = s.mem := rfl
@[simp] theorem State.drawn_fontset (s : State) : (s.drawn).fontset = s.fontset := rfl
@[simp] theorem State.drawn_rndDraws (s : State) : (s.drawn).rndDraws = s.rndDraws + 1 := rfl
@[simp] theorem State.drawn_outputs (s : State) : (s.drawn).outputs = s.outputs := rfl
@[simp] theorem State.drawn_schedule (s : State) : (s.drawn).schedule = s.schedule := rfl
@[simp] theorem State.drawn_afterwards (s : State) : (s.drawn).afterwards = s.afterwards := rfl

/-! ### `State.emit` (Machine/Ops.lean, an output event) -/

@[simp] theorem State.emit_v (s : State) (o : Output) : (s.emit o).v = s.v := rfl
@[simp] theorem State.emit_i (s : State) (o : Output) : (s.emit o).i = s.i := rfl
@[simp] theorem State.emit_pc (s : State) (o : Output) : (s.emit o).pc = s.pc := rfl
@[simp] theorem State.emit_sp (s : State) (o : Output) : (s.emit o).sp = s.sp := rfl
@[simp] theorem State.emit_stack (s : State) (o : Output) : (s.emit o).stack = s.stack := rfl
@[simp] theorem State.emit_dt (s : State) (o : Output) : (s.emit o).dt = s.dt := rfl
@[simp] theorem State.emit_st (s : State) (o : Output) : (s.emit o).st = s.st := rfl
@[simp] theorem State.emit_fault (s : State) (o : Output) : (s.emit o).fault = s.fault := rfl
@[simp] theorem State.emit_disp (s : State) (o : Output) : (s.emit o).disp = s.disp := rfl
@[simp] theorem State.emit_keypad (s : State) (o : Output) : (s.emit o).keypad = s.keypad := rfl
@[simp] theorem State.emit_mem (s : State) (o : Output) : (s.emit o).mem = s.mem := rfl
@[simp] theorem State.emit_fontset (s : State) (o : Output) : (s.emit o).fontset = s.fontset := rfl
@[simp] theorem State.emit_rndDraws (s : State) (o : Output) : (s.emit o).rndDraws = s.rndDraws := rfl
@[simp] theorem State.emit_outputs (s : State) (o : Output) : (s.emit o).outputs = o :: s.outputs := rfl
@[simp] theorem State.emit_schedule (s : State) (o : Output) : (s.emit o).schedule = s.schedule := rfl
@[simp] theorem State.emit_afterwards (s : State) (o : Output) : (s.emit o).afterwards = s.afterwards := rfl

/-! ### Registers through `State.reg` -/

/-- A register after `V[x] <- b`. -/
@[simp] theorem State.reg_setReg (s : State) (x : Reg) (b : Byte) (r : Reg) :
    (s.setReg x b).reg r = if r = x then b else s.reg r := by
  unfold State.reg State.setReg
  by_cases h : r = x
  · subst h; simp
  · have : x.val ≠ r.val := fun e => h (Fin.ext e.symm)
    simp [h, Vector.getElem_set_ne, this]

theorem State.reg_setReg_self (s : State) (x : Reg) (b : Byte) : (s.setReg x b).reg x = b := by simp

theorem State.reg_setReg_ne (s : State) {x r : Reg} (b : Byte) (h : r ≠ x) : (s.setReg x b).reg r = s.reg r := by
  simp [h]

/-- A register after `VF <- f`. -/
@[simp] theorem State.reg_setVF (s : State) (f : Byte) (r : Reg) : (s.setVF f).reg r = if r = VF then f else s.reg r :=
  State.reg_setReg s VF f r

@[simp] theorem State.reg_advance (s : State) (r : Reg) : s.advance.reg r = s.reg r := rfl
@[simp] theorem State.reg_skipIf (s : State) (c : Bool) (r : Reg) : (s.skipIf c).reg r = s.reg r := rfl
@[simp] theorem State.reg_jumpTo (s : State) (a : Word) (r : Reg) : (s.jumpTo a).reg r = s.reg r := rfl
@[simp] theorem State.reg_drawn (s : State) (r : Reg) : s.drawn.reg r = s.reg r := rfl
@[simp] theorem State.reg_emit (s : State) (o : Output) (r : Reg) : (s.emit o).reg r = s.reg r := rfl

/-- `State.reg` reads the field `v` alone. -/
theorem State.reg_congr {s t : State} (h : t.v = s.v) (r : Reg) : t.reg r = s.reg r := by
  unfold State.reg; simp [h]

/-! ### Pixels through `State.pixel` -/

@[simp] theorem State.pixel_setReg (s : State) (x : Reg) (b : Byte) (r : Fin 32) (c : Fin 64) :
    (s.setReg x b).pixel r c = s.pixel r c := rfl
@[simp] theorem State.pixel_setVF (s : State) (f : Byte) (r : Fin 32) (c : Fin 64) : (s.setVF f).pixel r c = s.pixel r c := rfl
@[simp] theorem State.pixel_advance (s : State) (r : Fin 32) (c : Fin 64) : s.advance.pixel r c = s.pixel r c := rfl
@[simp] theorem State.pixel_skipIf (s : State) (b : Bool) (r : Fin 32) (c : Fin 64) : (s.skipIf b).pixel r c = s.pixel r c := rfl
@[simp] theorem State.pixel_jumpTo (s : State) (a : Word) (r : Fin 32) (c : Fin 64) : (s.jumpTo a).pixel r c = s.pixel r c := rfl
@[simp] theorem State.pixel_drawn (s : State) (r : Fin 32) (c : Fin 64) : s.drawn.pixel r c = s.pixel r c := rfl
@[simp] theorem State.pixel_emit (s : State) (o : Output) (r : Fin 32) (c : Fin 64) : (s.emit o).pixel r c = s.pixel r c := rfl

/-! ### `State.store` -/

theorem State.store_mem (s : State) (a : Nat) (bs : List Byte) :
    (s.store a bs).mem = s.mem.writeBytes s.fontset a bs := rfl
@[simp] theorem State.store_v (s : State) (a : Nat) (bs : List Byte) : (s.store a bs).v = s.v := rfl
@[simp] theorem State.store_i (s : State) (a : Nat) (bs : List Byte) : (s.store a bs).i = s.i := rfl
@[simp] theorem State.store_pc (s : State) (a : Nat) (bs : List Byte) : (s.store a bs).pc = s.pc := rfl
@[simp] theorem State.store_sp (s : State) (a : Nat) (bs : List Byte) : (s.store a bs).sp = s.sp := rfl
@[simp] theorem State.store_stack (s : State) (a : Nat) (bs : List Byte) : (s.store a bs).stack = s.stack := rfl
@[simp] theorem State.store_dt (s : State) (a : Nat) (bs : List Byte) : (s.store a bs).dt = s.dt := rfl
@[simp] theorem State.store_st (s : State) (a : Nat) (bs : List Byte) : (s.store a bs).st = s.st := rfl
@[simp] theorem State.store_fault (s : State) (a : Nat) (bs : List Byte) : (s.store a bs).fault = s.fault := rfl
@[simp] theorem State.store_disp (s : State) (a : Nat) (bs : List Byte) : (s.store a bs).disp = s.disp := rfl
@[simp] theorem State.store_keypad (s : State) (a : Nat) (bs : List Byte) : (s.store a bs).keypad = s.keypad := rfl
@[simp] theorem State.store_fontset (s : State) (a : Nat) (bs : List Byte) : (s.store a bs).fontset = s.fontset := rfl
@[simp] theorem State.store_rndDraws (s : State) (a : Nat) (bs : List Byte) : (s.store a bs).rndDraws = s.rndDraws := rfl
@[simp] theorem State.store_outputs (s : State) (a : Nat) (bs : List Byte) : (s.store a bs).outputs = s.outputs := rfl
@[simp] theorem State.store_schedule (s : State) (a : Nat) (bs : List Byte) : (s.store a bs).schedule = s.schedule := rfl
@[simp] theorem State.store_afterwards (s : State) (a : Nat) (bs : List Byte) : (s.store a bs).afterwards = s.afterwards := rfl

@[simp] theorem State.reg_store (s : State) (a : Nat) (bs : List Byte) (r : Reg) : (s.store a bs).reg r = s.reg r := rfl
@[simp] theorem State.pixel_store (s : State) (a : Nat) (bs : List Byte) (r : Fin 32) (c : Fin 64) :
    (s.store a bs).pixel r c = s.pixel r c := rfl

/-! ### Bytes of memory through `State.read` -/

/-- A byte after a store. -/
theorem State.read_store (s : State) (a : Nat) (bs : List Byte) (k : Nat) :
    (s.store a bs).read k = if h : a ≤ k ∧ k - a < bs.length then bs[k - a]'h.2 else s.read k :=
  Memory.read_writeBytes bs s.mem a k

/-- A store inside memory keeps the canonical form. -/
theorem State.wf_store {s : State} {a : Nat} {bs : List Byte} (h : s.mem.wf s.fontset = true)
    (ha : a + bs.length ≤ Config.memSize) : (s.store a bs).mem.wf (s.store a bs).fontset = true :=
  Memory.wf_writeBytes bs h ha

/-- The byte stored at offset `j`. -/
theorem State.read_store_at (s : State) (a : Nat) (bs : List Byte) (j : Nat) (h : j < bs.length) :
    (s.store a bs).read (a + j) = bs[j] := Memory.read_writeBytes_at s.mem a bs j h

/-- Outside the bytes stored nothing changes. -/
theorem State.read_store_outside (s : State) (a : Nat) (bs : List Byte) {k : Nat} (h : k < a ∨ a + bs.length ≤ k) :
    (s.store a bs).read k = s.read k := Memory.read_writeBytes_outside s.mem a bs h

@[simp] theorem State.read_setReg (s : State) (x : Reg) (b : Byte) (a : Nat) : (s.setReg x b).read a = s.read a := rfl
@[simp] theorem State.read_setVF (s : State) (f : Byte) (a : Nat) : (s.setVF f).read a = s.read a := rfl
@[simp] theorem State.read_advance (s : State) (a : Nat) : (s.advance).read a = s.read a := rfl
@[simp] theorem State.read_skipIf (s : State) (c : Bool) (a : Nat) : (s.skipIf c).read a = s.read a := rfl
@[simp] theorem State.read_jumpTo (s : State) (p : Word) (a : Nat) : (s.jumpTo p).read a = s.read a := rfl
@[simp] theorem State.read_drawn (s : State) (a : Nat) : (s.drawn).read a = s.read a := rfl
@[simp] theorem State.read_emit (s : State) (o : Output) (a : Nat) : (s.emit o).read a = s.read a := rfl

end Sys2Proof.Machine
end

