-- ==== Sys2Proof/Laws/Ops.lean ====
section
/-! SUPPORT. For each shared operation, once, everything it can do. Later proofs cite these and do not unfold it. -/

namespace Sys2Proof.Machine

/-! ### Operands -/

theorem zextNNN_toNat (nnn : BitVec 12) : (zextNNN nnn).toNat = nnn.toNat := by
  have := nnn.isLt
  simp [zextNNN, BitVec.toNat_setWidth]; omega

theorem zextByte_toNat (b : Byte) : (zextByte b).toNat = b.toNat := by
  have := b.isLt
  simp [zextByte, BitVec.toNat_setWidth]; omega

theorem keyNumber_val (b : Byte) : (keyNumber b).val = b.toNat % 16 := rfl

theorem screenRow_val (vy : Byte) (row : Nat) : (screenRow vy row).val = (vy.toNat + row) % 32 := rfl

theorem screenCol_val (vx : Byte) (bit : Nat) : (screenCol vx bit).val = (vx.toNat + bit) % 64 := rfl

theorem State.dataInRange_iff (s : State) (m : Nat) : s.dataInRange m = true ↔ s.i.toNat + m ≤ 0xFFF := by
  unfold State.dataInRange State.dataAddr; exact decide_eq_true_iff

theorem State.fetchInRange_iff (s : State) : s.fetchInRange = true ↔ s.pc.toNat ≤ 0x0FFE := by
  simp [State.fetchInRange]

theorem firstKeyFrom_some {s : State} {j : Fin 16} : ∀ {n k : Nat}, k + n ≤ 16 → firstKeyFrom s k n = some j →
    k ≤ j.val ∧ j.val < k + n ∧ s.key j = true ∧ ∀ l : Fin 16, k ≤ l.val → l.val < j.val → s.key l = false := by
  intro n
  induction n with
  | zero => intro k _ h; simp [firstKeyFrom] at h
  | succ n ih =>
    intro k hk h
    have hval : (Fin.ofNat 16 k).val = k := by simp [Fin.ofNat]; omega
    unfold firstKeyFrom at h
    split at h
    · next hp =>
      have hj : Fin.ofNat 16 k = j := by simpa using h
      subst hj
      refine ⟨by omega, by omega, hp, fun l h1 h2 => by omega⟩
    · next hp =>
      obtain ⟨h1, h2, h3, h4⟩ := ih (k := k + 1) (by omega) h
      refine ⟨by omega, by omega, h3, fun l hl hlj => ?_⟩
      by_cases hlk : l.val = k
      · have : l = Fin.ofNat 16 k := Fin.ext (by omega)
        subst this; simpa using hp
      · exact h4 l (by omega) hlj

theorem firstKeyFrom_none {s : State} : ∀ {n k : Nat}, k + n ≤ 16 → firstKeyFrom s k n = none →
    ∀ l : Fin 16, k ≤ l.val → l.val < k + n → s.key l = false := by
  intro n
  induction n with
  | zero => intro k _ _ l h1 h2; omega
  | succ n ih =>
    intro k hk h l h1 h2
    unfold firstKeyFrom at h
    split at h
    · simp at h
    · next hp =>
      by_cases hlk : l.val = k
      · have : l = Fin.ofNat 16 k := Fin.ext (by simp [Fin.ofNat]; omega)
        subst this; simpa using hp
      · exact ih (k := k + 1) (by omega) h l (by omega) (by omega)

/-- The key the scan finds is pressed and every lower key is released. -/
theorem State.firstKey_some {s : State} {j : Fin 16} (h : s.firstKey = some j) :
    s.key j = true ∧ ∀ l : Fin 16, l < j → s.key l = false := by
  obtain ⟨-, -, h3, h4⟩ := firstKeyFrom_some (s := s) (n := 16) (k := 0) (by omega) h
  exact ⟨h3, fun l hl => h4 l (by omega) hl⟩

/-- The scan finds nothing only when no key is pressed. -/
theorem State.firstKey_none {s : State} (h : s.firstKey = none) (l : Fin 16) : s.key l = false :=
  firstKeyFrom_none (s := s) (n := 16) (k := 0) (by omega) h l (by omega) (by have := l.isLt; omega)

/-! ### Flags -/

theorem flagByte_eq (f : Bool) : flagByte f = 0 ∨ flagByte f = 1 := by cases f <;> simp [flagByte]

/-! ### Fault entry -/

@[simp] theorem raiseFault_eq (c : Cause) (s : State) : raiseFault c s = .next { s with fault := c.code } := rfl

/-- Everything a range-checked access can do. -/
theorem withDataRange_cases {m : Nat} {s k : State} {t : State} (h : withDataRange m s k = .next t) :
    (s.i.toNat + m ≤ 0xFFF ∧ t = k) ∨ (0xFFF < s.i.toNat + m ∧ t = { s with fault := Cause.code .dataOob }) := by
  unfold withDataRange at h
  split at h
  · next hr => exact .inl ⟨(s.dataInRange_iff m).mp hr, by simpa using h.symm⟩
  · next hr =>
    refine .inr ⟨?_, by simpa using h.symm⟩
    have := mt (s.dataInRange_iff m).mpr hr
    omega

theorem withDataRange_in {m : Nat} {s k : State} (h : s.i.toNat + m ≤ 0xFFF) : withDataRange m s k = .next k := by
  simp [withDataRange, (s.dataInRange_iff m).mpr h]

theorem withDataRange_out {m : Nat} {s k : State} (h : 0xFFF < s.i.toNat + m) :
    withDataRange m s k = .next { s with fault := Cause.code .dataOob } := by
  have : s.dataInRange m ≠ true := fun e => absurd ((s.dataInRange_iff m).mp e) (by omega)
  simp [withDataRange, this]

/-! ### The return stack -/

theorem State.push_eq (s : State) (a : Word) (h : s.sp.toNat < 16) :
    s.push a = some { s with stack := s.stack.set s.sp.toNat a h, sp := s.sp + 1 } := by simp [State.push, h]

theorem State.push_none (s : State) (a : Word) (h : 16 ≤ s.sp.toNat) : s.push a = none := by
  simp [State.push, Nat.not_lt.mpr h]

theorem State.sp_sub_one_toNat (s : State) (h : s.sp ≠ 0) : (s.sp - 1).toNat = s.sp.toNat - 1 := by
  have h0 : s.sp.toNat ≠ 0 := fun e => h (BitVec.eq_of_toNat_eq (by simpa using e))
  have := s.sp.isLt
  rw [BitVec.toNat_sub]; simp; omega

theorem State.pop_eq (s : State) (h0 : s.sp ≠ 0) (h : s.sp.toNat ≤ 16) :
    s.pop = some (s.stack[s.sp.toNat - 1]'(by
      have : s.sp.toNat ≠ 0 := fun e => h0 (BitVec.eq_of_toNat_eq (by simpa using e))
      omega), { s with sp := s.sp - 1 }) := by
  have h1 := s.sp_sub_one_toNat h0
  have : s.sp.toNat ≠ 0 := fun e => h0 (BitVec.eq_of_toNat_eq (by simpa using e))
  have hlt : (s.sp - 1).toNat < 16 := by omega
  simp only [State.pop, hlt, dif_pos, Option.some.injEq, Prod.mk.injEq, and_true]
  congr 1

theorem State.pop_none (s : State) (h : 16 < s.sp.toNat) : s.pop = none := by
  have h0 : s.sp ≠ 0 := by rintro e; rw [e] at h; simp at h
  have h1 := s.sp_sub_one_toNat h0
  have : ¬ (s.sp - 1).toNat < 16 := by omega
  rw [State.pop, dif_neg this]

/-- Everything a push can do. -/
theorem State.push_cases {s t : State} {a : Word} (h : s.push a = some t) :
    ∃ hlt : s.sp.toNat < 16, t = { s with stack := s.stack.set s.sp.toNat a hlt, sp := s.sp + 1 } := by
  by_cases hlt : s.sp.toNat < 16
  · rw [s.push_eq a hlt] at h; exact ⟨hlt, by simpa using h.symm⟩
  · rw [s.push_none a (by omega)] at h; simp at h

/-- Everything a pop of a stack that is not empty can do. -/
theorem State.pop_cases {s t : State} {a : Word} (h0 : s.sp ≠ 0) (h : s.pop = some (a, t)) :
    ∃ k : Fin 16, s.sp.toNat = k.val + 1 ∧ a = s.stack[k.val]'k.isLt ∧ t = { s with sp := s.sp - 1 } := by
  have hne : s.sp.toNat ≠ 0 := fun e => h0 (BitVec.eq_of_toNat_eq (by simpa using e))
  by_cases hle : s.sp.toNat ≤ 16
  · rw [s.pop_eq h0 hle] at h
    simp only [Option.some.injEq, Prod.mk.injEq] at h
    exact ⟨⟨s.sp.toNat - 1, by omega⟩, by simp only []; omega, h.1.symm, h.2.symm⟩
  · rw [s.pop_none (by omega)] at h; simp at h

/-! ### The register block -/

theorem State.length_regBlock (s : State) (x : Reg) : (s.regBlock x).length = x.val + 1 := by
  have := x.isLt
  simp [State.regBlock]

theorem State.getElem_regBlock (s : State) (x : Reg) (k : Nat) (h : k < (s.regBlock x).length) :
    (s.regBlock x)[k] = s.reg ⟨k, by rw [s.length_regBlock] at h; have := x.isLt; omega⟩ := by
  simp [State.regBlock, State.reg]

/-- A register after the load of `n` registers: the byte of memory below `n`, its old value from `n` on. -/
theorem loadBlock_getElem (rd : Nat → Byte) (a : Nat) (v : Vector Byte 16) (n k : Nat) (hk : k < 16) :
    (loadBlock rd a n v)[k] = if k < n then rd (a + k) else v[k] := by
  induction n with
  | zero => simp [loadBlock]
  | succ n ih =>
    rw [loadBlock, Vector.getElem_setIfInBounds]
    by_cases h : n = k
    · subst h; simp
    · simp only [h, if_false, ih]
      by_cases h2 : k < n
      · simp [h2, Nat.lt_succ_of_lt h2]
      · have : ¬ k < n + 1 := by omega
        simp [h2, this]

/-! ### The blit -/

theorem getLsbD_one_shift (c c' : Nat) (h : c < 64) : ((1#64 <<< c').getLsbD c) = decide (c = c') := by
  by_cases hc : c = c'
  · subst hc; simp [h]
  · by_cases hlt : c < c'
    · simp [h, hlt, hc]
    · have : c - c' ≠ 0 := by omega
      simp [h, hlt, hc, this]

/-- Toggling a pixel inverts that pixel and no other. -/
theorem Blit.pixel_toggle (b : Blit) (r r' : Fin 32) (c c' : Fin 64) :
    Display.pixel (b.toggle r' c').disp r c = (Display.pixel b.disp r c ^^ decide (r = r' ∧ c = c')) := by
  unfold Display.pixel Blit.toggle
  by_cases hr : r = r'
  · subst hr
    simp only [Vector.getElem_set_self, BitVec.getLsbD_xor, getLsbD_one_shift _ _ c.isLt, true_and, Fin.ext_iff]
  · have : r'.val ≠ r.val := fun e => hr (Fin.ext e.symm)
    simp [Vector.getElem_set_ne, this, hr]

theorem Blit.collision_toggle (b : Blit) (r' : Fin 32) (c' : Fin 64) :
    (b.toggle r' c').collision = (b.collision || Display.pixel b.disp r' c') := rfl

/-! ### Fetch -/

theorem State.fetchWord_eq (s : State) :
    s.fetchWord = wordOfBytes (s.read s.pc.toNat) (s.read (s.pc.toNat + 1)) := rfl

end Sys2Proof.Machine
end

