-- ==== Sys2Proof/Laws/Meanings.lean ====
section
/-! SUPPORT. What the meanings that branch can answer: one inversion lemma each. The other meanings are one equation, true by
rfl. Also what a Cycle can be, and that the fetch of a word placed by withFetchWord finds it. -/

namespace Sys2Proof.Machine

theorem next_inj {s t : State} (h : (Host.Outcome.next s : Result) = .next t) : t = s := by simpa using h.symm

/-- `00EE`: underflow, or the entry popped. -/
theorem execRet_cases {s t : State} (h : execRet s = .next t) :
    (s.sp = 0 ∧ t = { s with fault := Cause.code .stackUnderflow }) ∨
    ∃ k : Fin 16, s.sp.toNat = k.val + 1 ∧
      t = { s with sp := s.sp - 1, pc := s.stack[k.val]'k.isLt + 2 } := by
  unfold execRet at h
  split at h
  · next h0 => exact .inl ⟨h0, next_inj h⟩
  · next h0 =>
    split at h
    · next a u hp =>
      obtain ⟨k, hk, ha, hu⟩ := State.pop_cases h0 hp
      subst ha hu
      exact .inr ⟨k, hk, next_inj h⟩
    · cases h

/-- `2nnn`: overflow, or the call's own address pushed. -/
theorem execCall_cases {nnn : BitVec 12} {s t : State} (h : execCall nnn s = .next t) :
    (s.sp = 16 ∧ t = { s with fault := Cause.code .stackOverflow }) ∨
    ∃ hlt : s.sp.toNat < 16,
      t = { s with stack := s.stack.set s.sp.toNat s.pc hlt, sp := s.sp + 1, pc := zextNNN nnn } := by
  unfold execCall at h
  split at h
  · next h0 => exact .inl ⟨h0, next_inj h⟩
  · split at h
    · next u hp =>
      obtain ⟨hlt, hu⟩ := State.push_cases hp
      subst hu
      exact .inr ⟨hlt, next_inj h⟩
    · cases h

/-- `Dxyn`: drawn with every row in memory, or the fault. -/
theorem execDrw_cases {x y : Reg} {n : Fin 16} {s t : State} (h : execDrw x y n s = .next t) :
    ((n.val = 0 ∨ s.i.toNat + (n.val - 1) ≤ 0xFFF) ∧ t = s.drawn2D x y n) ∨
    (0 < n.val ∧ 0xFFF < s.i.toNat + (n.val - 1) ∧ t = { s with fault := Cause.code .dataOob }) := by
  unfold execDrw at h
  split at h
  · next h0 => exact .inl ⟨.inl h0, next_inj h⟩
  · next h0 =>
    rcases withDataRange_cases h with ⟨h1, h⟩ | ⟨h1, h⟩
    · exact .inl ⟨.inr h1, h⟩
    · exact .inr ⟨by omega, h1, h⟩

/-- `Fx0A`: the lowest pressed key, or nothing. -/
theorem execLdVxK_cases {x : Reg} {s t : State} (h : execLdVxK x s = .next t) :
    (∃ k, s.firstKey = some k ∧ t = (s.setReg x (BitVec.ofNat 8 k.val)).advance) ∨ (s.firstKey = none ∧ t = s) := by
  unfold execLdVxK at h
  split at h
  · next k hk => exact .inl ⟨k, hk, next_inj h⟩
  · next hk => exact .inr ⟨hk, next_inj h⟩

/-- A store at `I`: the bytes stored, or the fault. -/
theorem storeAtIndex_cases {m : Nat} {bs : List Byte} {s t : State} (h : storeAtIndex m bs s = .next t) :
    (s.i.toNat + m ≤ 0xFFF ∧ t = (s.store (s.dataAddr 0) bs).advance) ∨
    (0xFFF < s.i.toNat + m ∧ t = { s with fault := Cause.code .dataOob }) := withDataRange_cases h

/-- `Fx65`: the registers loaded, or the fault. -/
theorem execLoadRegs_cases {x : Reg} {s t : State} (h : execLoadRegs x s = .next t) :
    (s.i.toNat + x.val ≤ 0xFFF ∧
      t = { s with v := loadBlock s.read (s.dataAddr 0) (x.val + 1) s.v, pc := s.pc + 2 }) ∨
    (0xFFF < s.i.toNat + x.val ∧ t = { s with fault := Cause.code .dataOob }) := withDataRange_cases h

/-! ### The Cycle event -/

theorem cycle_halted {s : State} (h : s.fault ≠ 0) : cycle s = .next s := by
  unfold cycle
  rw [if_pos h]

theorem cycle_runs {s : State} (h : s.fault = 0) (hp : s.pc.toNat ≤ 0x0FFE) :
    cycle s = exec (decodeWord s.fetchWord) s := by
  simp [cycle, h, s.fetchInRange_iff.mpr hp]

theorem cycle_fetchOob {s : State} (h : s.fault = 0) (hp : 0x0FFE < s.pc.toNat) :
    cycle s = .next { s with fault := Cause.code .fetchOob } := by
  have : s.fetchInRange ≠ true := fun e => absurd (s.fetchInRange_iff.mp e) (by omega)
  simp [cycle, h, this]

/-! ### The next event -/

/-- Taking the next event changes nothing but what the host has left to issue. -/
theorem State.takeEvent_snd (s : State) : ∃ l a, s.takeEvent.2 = { s with schedule := l, afterwards := a } := by
  unfold State.takeEvent
  split <;> exact ⟨_, _, rfl⟩

/-- A step whose event is a Cycle. -/
theorem step_cycle {s : State} {t : State} (h : s.takeEvent = (.cycle, t)) : step s = cycle t := by
  unfold step nextEvent
  rw [h]
  rfl

/-! ### Placing a word where the next step fetches -/

theorem State.fetchWord_placeFetchWord (s : State) (w : Word) : (s.placeFetchWord w).fetchWord = w := by
  have e : ∀ a, (s.placeFetchWord w).read a =
      (s.store (s.placeFetchWord w).pc.toNat [highByte w, lowByte w]).read a := fun _ => rfl
  unfold State.fetchWord
  simp only [e, State.read_store]
  simp [wordOfBytes_high_low]

end Sys2Proof.Machine
end

