-- ==== Sys2Proof/Laws/PerInstr.lean ====
section
/-! SUPPORT. Statements made of every instruction, one lemma per constructor. Family EncodeFamily: the top nibble of an
instruction's word is the first digit of its pattern in `30_encoding.md` R66. -/

namespace Sys2Proof.Laws.EncodeFamily

/-- The first digit of the instruction's pattern (R66); of an unrecognized word, one of the four families R67 names. -/
def nibbleOk : Instr → Nat → Bool
  | .cls, f | .ret, f => f == 0x0
  | .jp _, f => f == 0x1
  | .call _, f => f == 0x2
  | .seImm _ _, f => f == 0x3
  | .sneImm _ _, f => f == 0x4
  | .seReg _ _, f => f == 0x5
  | .ldImm _ _, f => f == 0x6
  | .addImm _ _, f => f == 0x7
  | .ldReg _ _, f | .orReg _ _, f | .andReg _ _, f | .xorReg _ _, f | .addReg _ _, f | .subReg _ _, f | .shr _ _, f
  | .subnReg _ _, f | .shl _ _, f => f == 0x8
  | .sneReg _ _, f => f == 0x9
  | .ldI _, f => f == 0xA
  | .jpV0 _, f => f == 0xB
  | .rnd _ _, f => f == 0xC
  | .drw _ _ _, f => f == 0xD
  | .skp _, f | .sknp _, f => f == 0xE
  | .ldVxDT _, f | .ldVxK _, f | .ldDTVx _, f | .ldSTVx _, f | .addIVx _, f | .ldFVx _, f | .ldBVx _, f
  | .storeRegs _, f | .loadRegs _, f => f == 0xF
  | .unknown _, f => f == 0x0 || f == 0x8 || f == 0xE || f == 0xF

/-- A well-formed instruction's word has the top nibble of its pattern. -/
def Statement (i : Instr) : Prop := i.wf = true → nibbleOk i (family (encode i)) = true

theorem cls : Statement .cls := fun _ => by decide
theorem ret : Statement .ret := fun _ => by decide
theorem jp (nnn : BitVec 12) : Statement (.jp nnn) := fun _ => by
  simp [nibbleOk, encode, family, slice_family_packNNN]
theorem call (nnn : BitVec 12) : Statement (.call nnn) := fun _ => by
  simp [nibbleOk, encode, family, slice_family_packNNN]
theorem seImm (x : Reg) (nn : Byte) : Statement (.seImm x nn) := fun _ => by
  simp [nibbleOk, encode, family, slice_family_packXNN]
theorem sneImm (x : Reg) (nn : Byte) : Statement (.sneImm x nn) := fun _ => by
  simp [nibbleOk, encode, family, slice_family_packXNN]
theorem seReg (x : Reg) (y : Reg) : Statement (.seReg x y) := fun _ => by
  simp [nibbleOk, encode, family, slice_family_packXYN]
theorem ldImm (x : Reg) (nn : Byte) : Statement (.ldImm x nn) := fun _ => by
  simp [nibbleOk, encode, family, slice_family_packXNN]
theorem addImm (x : Reg) (nn : Byte) : Statement (.addImm x nn) := fun _ => by
  simp [nibbleOk, encode, family, slice_family_packXNN]
theorem ldReg (x : Reg) (y : Reg) : Statement (.ldReg x y) := fun _ => by
  simp [nibbleOk, encode, family, slice_family_packXYN]
theorem orReg (x : Reg) (y : Reg) : Statement (.orReg x y) := fun _ => by
  simp [nibbleOk, encode, family, slice_family_packXYN]
theorem andReg (x : Reg) (y : Reg) : Statement (.andReg x y) := fun _ => by
  simp [nibbleOk, encode, family, slice_family_packXYN]
theorem xorReg (x : Reg) (y : Reg) : Statement (.xorReg x y) := fun _ => by
  simp [nibbleOk, encode, family, slice_family_packXYN]
theorem addReg (x : Reg) (y : Reg) : Statement (.addReg x y) := fun _ => by
  simp [nibbleOk, encode, family, slice_family_packXYN]
theorem subReg (x : Reg) (y : Reg) : Statement (.subReg x y) := fun _ => by
  simp [nibbleOk, encode, family, slice_family_packXYN]
theorem shr (x : Reg) (y : Reg) : Statement (.shr x y) := fun _ => by
  simp [nibbleOk, encode, family, slice_family_packXYN]
theorem subnReg (x : Reg) (y : Reg) : Statement (.subnReg x y) := fun _ => by
  simp [nibbleOk, encode, family, slice_family_packXYN]
theorem shl (x : Reg) (y : Reg) : Statement (.shl x y) := fun _ => by
  simp [nibbleOk, encode, family, slice_family_packXYN]
theorem sneReg (x : Reg) (y : Reg) : Statement (.sneReg x y) := fun _ => by
  simp [nibbleOk, encode, family, slice_family_packXYN]
theorem ldI (nnn : BitVec 12) : Statement (.ldI nnn) := fun _ => by
  simp [nibbleOk, encode, family, slice_family_packNNN]
theorem jpV0 (nnn : BitVec 12) : Statement (.jpV0 nnn) := fun _ => by
  simp [nibbleOk, encode, family, slice_family_packNNN]
theorem rnd (x : Reg) (nn : Byte) : Statement (.rnd x nn) := fun _ => by
  simp [nibbleOk, encode, family, slice_family_packXNN]
theorem drw (x : Reg) (y : Reg) (n : Fin 16) : Statement (.drw x y n) := fun _ => by
  simp [nibbleOk, encode, family, slice_family_packXYN]
theorem skp (x : Reg) : Statement (.skp x) := fun _ => by
  simp [nibbleOk, encode, family, slice_family_packXNN]
theorem sknp (x : Reg) : Statement (.sknp x) := fun _ => by
  simp [nibbleOk, encode, family, slice_family_packXNN]
theorem ldVxDT (x : Reg) : Statement (.ldVxDT x) := fun _ => by
  simp [nibbleOk, encode, family, slice_family_packXNN]
theorem ldVxK (x : Reg) : Statement (.ldVxK x) := fun _ => by
  simp [nibbleOk, encode, family, slice_family_packXNN]
theorem ldDTVx (x : Reg) : Statement (.ldDTVx x) := fun _ => by
  simp [nibbleOk, encode, family, slice_family_packXNN]
theorem ldSTVx (x : Reg) : Statement (.ldSTVx x) := fun _ => by
  simp [nibbleOk, encode, family, slice_family_packXNN]
theorem addIVx (x : Reg) : Statement (.addIVx x) := fun _ => by
  simp [nibbleOk, encode, family, slice_family_packXNN]
theorem ldFVx (x : Reg) : Statement (.ldFVx x) := fun _ => by
  simp [nibbleOk, encode, family, slice_family_packXNN]
theorem ldBVx (x : Reg) : Statement (.ldBVx x) := fun _ => by
  simp [nibbleOk, encode, family, slice_family_packXNN]
theorem storeRegs (x : Reg) : Statement (.storeRegs x) := fun _ => by
  simp [nibbleOk, encode, family, slice_family_packXNN]
theorem loadRegs (x : Reg) : Statement (.loadRegs x) := fun _ => by
  simp [nibbleOk, encode, family, slice_family_packXNN]
theorem unknown (op : Word) : Statement (.unknown op) := fun h => by
  simp only [Instr.wf, unrecognized, unrecognized0, unrecognized8, unrecognizedE, unrecognizedF, Bool.or_eq_true,
    Bool.and_eq_true, beq_iff_eq] at h
  simp only [nibbleOk, encode, family, Bool.or_eq_true, beq_iff_eq]
  omega

end Sys2Proof.Laws.EncodeFamily
end

