-- ==== Sys2Proof/Laws/Pixel.lean ====
section
/-! SUPPORT. The blit of `Dxyn` as one parallel toggle (`43_display.md` R133), a row and then a sprite at a time. -/

namespace Sys2Proof.Machine
theorem any_range_succ (n : Nat) (p : Nat → Bool) : (List.range (n + 1)).any p = ((List.range n).any p || p n) := by
  simp [List.range_succ]

/-- Does one of the first `n` bits of a sprite row light column `c`? -/
def rowHits (vx byte : Byte) (n : Nat) (c : Fin 64) : Bool :=
  (List.range n).any fun bit => spriteBit byte bit && screenCol vx bit == c

/-- Does one of the first `n` rows of the sprite at `a` light `(r, c)`? -/
def spriteHits (rd : Nat → Byte) (a : Nat) (vx vy : Byte) (n : Nat) (r : Fin 32) (c : Fin 64) : Bool :=
  (List.range n).any fun row => screenRow vy row == r && rowHits vx (rd (a + row)) 8 c

theorem rowHits_iff (vx byte : Byte) (n : Nat) (c : Fin 64) :
    rowHits vx byte n c = true ↔ ∃ bit, bit < n ∧ spriteBit byte bit = true ∧ screenCol vx bit = c := by
  simp [rowHits]

theorem spriteHits_iff (rd : Nat → Byte) (a : Nat) (vx vy : Byte) (n : Nat) (r : Fin 32) (c : Fin 64) :
    spriteHits rd a vx vy n r c = true ↔
      ∃ row, row < n ∧ screenRow vy row = r ∧ rowHits vx (rd (a + row)) 8 c = true := by
  simp [spriteHits]

/-- The eight bits of a row land on eight columns: the next bit's column is none of those before it. -/
theorem rowHits_fresh (vx byte : Byte) (n : Nat) (h : n < 64) : rowHits vx byte n (screenCol vx n) = false := by
  rw [← Bool.not_eq_true, rowHits_iff]
  rintro ⟨bit, hb, -, hc⟩
  have := congrArg Fin.val hc
  simp only [screenCol_val] at this
  omega

/-- A row's blit, stopped after `n` bits. -/
theorem Blit.rowBits_spec (vx byte : Byte) (r' : Fin 32) (b : Blit) : ∀ n, n ≤ 8 →
    let b' := (List.range n).foldl (fun b bit => if spriteBit byte bit then b.toggle r' (screenCol vx bit) else b) b
    (∀ r c, Display.pixel b'.disp r c = (Display.pixel b.disp r c ^^ (r' == r && rowHits vx byte n c))) ∧
    (b'.collision = true ↔ b.collision = true ∨ ∃ c, rowHits vx byte n c = true ∧ Display.pixel b.disp r' c = true)
  | 0, _ => by simp [rowHits]
  | n + 1, hn => by
    obtain ⟨hp, hc⟩ := Blit.rowBits_spec vx byte r' b n (by omega)
    have fresh := rowHits_fresh vx byte n (by omega)
    have step : ∀ c, rowHits vx byte (n + 1) c = (rowHits vx byte n c || (spriteBit byte n && screenCol vx n == c)) :=
      fun c => any_range_succ n _
    rw [List.range_succ, List.foldl_append]
    simp only [List.foldl_cons, List.foldl_nil, step]
    cases hb : spriteBit byte n
    · simpa using ⟨hp, hc⟩
    · simp only [if_pos, Blit.pixel_toggle, Blit.collision_toggle, Bool.or_eq_true, hp, hc, Bool.true_and]
      refine ⟨fun r c => ?_, ?_⟩
      · by_cases hr : r' = r
        · by_cases hcc : screenCol vx n = c
          · subst hr hcc; simp [fresh]
          · simp [hr, hcc, Ne.symm hcc]
        · simp [beq_false_of_ne hr, Ne.symm hr]
      · simp only [fresh, Bool.and_false, Bool.xor_false, beq_iff_eq, or_assoc, or_and_right, exists_or]
        simp

/-- A row's blit: the row's hits are toggled, and a lit pixel among them is noted. -/
theorem Blit.row_spec (vx byte : Byte) (r' : Fin 32) (b : Blit) :
    (∀ r c, Display.pixel (b.row vx byte r').disp r c = (Display.pixel b.disp r c ^^ (r' == r && rowHits vx byte 8 c))) ∧
    ((b.row vx byte r').collision = true ↔
      b.collision = true ∨ ∃ c, rowHits vx byte 8 c = true ∧ Display.pixel b.disp r' c = true) :=
  Blit.rowBits_spec vx byte r' b 8 (Nat.le_refl 8)

/-- The rows of a sprite land on different display rows. -/
theorem spriteHits_fresh (rd : Nat → Byte) (a : Nat) (vx vy : Byte) (n : Nat) (h : n < 32) (c : Fin 64) :
    spriteHits rd a vx vy n (screenRow vy n) c = false := by
  rw [← Bool.not_eq_true, spriteHits_iff]
  rintro ⟨row, hr, e, -⟩
  have := congrArg Fin.val e
  simp only [screenRow_val] at this
  omega

/-- The sprite's blit (`43_display.md` R133): the sprite's hits are toggled, and a lit pixel among them is noted. -/
theorem Blit.sprite_spec (rd : Nat → Byte) (a : Nat) (vx vy : Byte) (b : Blit) : ∀ n, n ≤ 32 →
    (∀ r c, Display.pixel (b.sprite rd a vx vy n).disp r c = (Display.pixel b.disp r c ^^ spriteHits rd a vx vy n r c)) ∧
    ((b.sprite rd a vx vy n).collision = true ↔
      b.collision = true ∨ ∃ r c, spriteHits rd a vx vy n r c = true ∧ Display.pixel b.disp r c = true)
  | 0, _ => by simp [Blit.sprite, spriteHits]
  | n + 1, hn => by
    obtain ⟨hp, hc⟩ := Blit.sprite_spec rd a vx vy b n (by omega)
    have fresh := spriteHits_fresh rd a vx vy n (by omega)
    have step : ∀ r c, spriteHits rd a vx vy (n + 1) r c =
        (spriteHits rd a vx vy n r c || (screenRow vy n == r && rowHits vx (rd (a + n)) 8 c)) :=
      fun r c => any_range_succ n _
    have unf : b.sprite rd a vx vy (n + 1) = (b.sprite rd a vx vy n).row vx (rd (a + n)) (screenRow vy n) := by
      simp [Blit.sprite, List.range_succ]
    obtain ⟨rp, rc⟩ := Blit.row_spec vx (rd (a + n)) (screenRow vy n) (b.sprite rd a vx vy n)
    rw [unf]
    refine ⟨fun r c => ?_, ?_⟩
    · rw [rp, hp, step]
      by_cases hr : screenRow vy n = r
      · subst hr; simp [fresh]
      · simp [beq_false_of_ne hr]
    · rw [rc, hc]
      simp only [step, hp, fresh, Bool.xor_false, Bool.or_eq_true, Bool.and_eq_true, beq_iff_eq, or_and_right, exists_or,
        or_assoc]
      refine or_congr_right (or_congr_right ?_)
      constructor
      · rintro ⟨c, h1, h2⟩; exact ⟨_, c, ⟨rfl, h1⟩, h2⟩
      · rintro ⟨r, c, ⟨rfl, h1⟩, h2⟩; exact ⟨c, h1, h2⟩
end Sys2Proof.Machine
end

