-- ==== Sys2Proof/Laws/Runs.lean ====
section
/-! SUPPORT. Runs of several steps, and the bytes of memory under a store. -/

namespace Sys2Proof.Machine

@[simp] theorem runs_zero (s : State) : runs 0 s = .next s := rfl

/-- A run whose first step answers a next state goes on from there. -/
theorem runs_succ {n : Nat} {s t : State} (h : step s = .next t) : runs (n + 1) s = runs n t := by
  rw [runs, h]

/-- A run is its first part and then the rest. -/
theorem runs_add {a b : Nat} {s t : State} (h : runs a s = .next t) : runs (a + b) s = runs b t := by
  induction a generalizing s with
  | zero => cases h; rw [Nat.zero_add]
  | succ a ih =>
    rw [runs] at h
    split at h
    · next u hu => rw [show a + 1 + b = a + b + 1 by omega, runs_succ hu, ih h]
    · cases h
    · cases h

/-- A byte under a store is what the store leaves there. -/
theorem State.byteOver_eq (s : State) (a : Nat) (bs : List Byte) (b : Nat) : s.byteOver a bs b = (s.store a bs).read b := by
  rw [State.read_store, State.byteOver]
  by_cases h : b < a
  · rw [if_pos h, dif_neg (by omega)]
  · rw [if_neg h]
    by_cases hl : b - a < bs.length
    · rw [dif_pos ⟨by omega, hl⟩, List.getD_eq_getElem _ _ hl]
    · rw [dif_neg (by omega), List.getD_eq_default _ _ (by omega)]

end Sys2Proof.Machine
end

