-- ==== Sys2Proof/Machine/Assembly.lean ====
section
/-! DEFINITION. The assembly notation of `30_encoding.md` R72 to R74: the text of an instruction and the bytes of a listing.
Texts are lists of characters. They are the spec's own notation and not the strings of the repository's disassembler, which
are out of scope (`00_scope.md` R4; log entry 13). No step uses this file. -/

namespace Sys2Proof.Machine

/-- An upper-case hex digit. -/
def hexDigit (k : Nat) : Char := ("0123456789ABCDEF".toList).getD (k % 16) '0'

/-- `digits` hex digits of `n`, most significant first. -/
def hexDigits : Nat → Nat → List Char
  | 0, _ => []
  | digits + 1, n => hexDigit (n / 16 ^ digits) :: hexDigits digits n

/-- `V` and one hex digit. -/
def textReg (x : Reg) : List Char := ['V', hexDigit x.val]

/-- `0x` and `digits` hex digits: one for `n`, two for `nn`, three for `nnn`. -/
def textHex (digits n : Nat) : List Char := '0' :: 'x' :: hexDigits digits n

/-- An operation with one operand. -/
def text1 (op : String) (a : List Char) : List Char := op.toList ++ ' ' :: a
/-- An operation with two operands. -/
def text2 (op : String) (a b : List Char) : List Char := text1 op (a ++ ", ".toList ++ b)

/-- The assembly column of R66, its operands written as R72 says. -/
def textOf : Instr → List Char
  | .cls => "CLS".toList
  | .ret => "RET".toList
  | .jp nnn => text1 "JP" (textHex 3 nnn.toNat)
  | .call nnn => text1 "CALL" (textHex 3 nnn.toNat)
  | .seImm x nn => text2 "SE" (textReg x) (textHex 2 nn.toNat)
  | .sneImm x nn => text2 "SNE" (textReg x) (textHex 2 nn.toNat)
  | .seReg x y => text2 "SE" (textReg x) (textReg y)
  | .ldImm x nn => text2 "LD" (textReg x) (textHex 2 nn.toNat)
  | .addImm x nn => text2 "ADD" (textReg x) (textHex 2 nn.toNat)
  | .ldReg x y => text2 "LD" (textReg x) (textReg y)
  | .orReg x y => text2 "OR" (textReg x) (textReg y)
  | .andReg x y => text2 "AND" (textReg x) (textReg y)
  | .xorReg x y => text2 "XOR" (textReg x) (textReg y)
  | .addReg x y => text2 "ADD" (textReg x) (textReg y)
  | .subReg x y => text2 "SUB" (textReg x) (textReg y)
  | .shr x _ => text1 "SHR" (textReg x)
  | .subnReg x y => text2 "SUBN" (textReg x) (textReg y)
  | .shl x _ => text1 "SHL" (textReg x)
  | .sneReg x y => text2 "SNE" (textReg x) (textReg y)
  | .ldI nnn => text2 "LD" ['I'] (textHex 3 nnn.toNat)
  | .jpV0 nnn => text2 "JP" (textReg 0) (textHex 3 nnn.toNat)
  | .rnd x nn => text2 "RND" (textReg x) (textHex 2 nn.toNat)
  | .drw x y n => text2 "DRW" (textReg x) (textReg y ++ ", ".toList ++ textHex 1 n.val)
  | .skp x => text1 "SKP" (textReg x)
  | .sknp x => text1 "SKNP" (textReg x)
  | .ldVxDT x => text2 "LD" (textReg x) "DT".toList
  | .ldVxK x => text2 "LD" (textReg x) ['K']
  | .ldDTVx x => text2 "LD" "DT".toList (textReg x)
  | .ldSTVx x => text2 "LD" "ST".toList (textReg x)
  | .addIVx x => text2 "ADD" ['I'] (textReg x)
  | .ldFVx x => text2 "LD" ['F'] (textReg x)
  | .ldBVx x => text2 "LD" ['B'] (textReg x)
  | .storeRegs x => text2 "LD" "[I]".toList (textReg x)
  | .loadRegs x => text2 "LD" (textReg x) "[I]".toList
  | .unknown op => text1 "UNKNOWN" (textHex 4 op.toNat)

/-- A line of a listing: an instruction, or the directive `DB` with its bytes (R73). -/
inductive ListingLine where
  | instr (i : Instr)
  | db (bytes : List Byte)
  deriving DecidableEq, Repr

/-- The bytes of one line. -/
def ListingLine.bytes : ListingLine → List Byte
  | .instr i => encodeBytes i
  | .db bytes => bytes

/-- The image of a listing: raw bytes in order, no header (R74). LoadRom copies it to 0x200 (`70_reset_and_hazards.md`
R193). -/
def assemble (listing : List ListingLine) : List Byte := listing.flatMap ListingLine.bytes

/-- What the debug interface says of an address (`60_exceptions.md` R184), in this notation: the text of what the two memory
bytes there decode to. DESIGN CHOICE (log entry 13): at 0xFFF, whose second byte is outside memory, and above, where the spec
gives no text (`MemRead(addr, 2)` is defined to 0xFFE only), a byte outside memory is taken as 0x00. -/
def State.textAt (s : State) (a : Nat) : List Char := textOf (decodeWord (wordOfBytes (s.read a) (s.read (a + 1))))

end Sys2Proof.Machine
end

