-- ==== Sys2Proof/Tests/Slice0.lean ====
section
/-! SUPPORT. The model's own tests. Every expected value is from the spec: the encodings of `30_encoding.md` R66, the vectors of
`95_test_vectors.md` (their numbers are given), or the rule named. The last part shows for each statement with hypotheses a
state and operands that meet them. -/

namespace Sys2Proof.Tests

open Sys2Proof.Machine

/-! ### WellFormed: an ill-formed term for each class of the check, and a well-formed one -/

theorem smoke_refuses_family0 : Instr.wf (.unknown 0x00E0) = false ∧ Instr.wf (.unknown 0x00EE) = false := by decide
theorem smoke_refuses_family8 : Instr.wf (.unknown 0x8124) = false := by decide
theorem smoke_refuses_familyE : Instr.wf (.unknown 0xE09E) = false := by decide
theorem smoke_refuses_familyF : Instr.wf (.unknown 0xF007) = false := by decide
theorem smoke_refuses_full_family : Instr.wf (.unknown 0x1234) = false ∧ Instr.wf (.unknown 0x5001) = false := by decide
theorem smoke_accepts : Instr.wf (.unknown 0x0000) = true ∧ Instr.wf (.unknown 0x812F) = true ∧
    Instr.wf (.unknown 0xE19F) = true ∧ Instr.wf (.unknown 0xF01F) = true ∧ Instr.wf (.drw 1 2 0) = true := by decide

/-! ### Decode: a word of each row, written out from R61 and R66 -/

theorem test_decode_fixed : decodeWord 0b0000_0000_1110_0000 = .cls ∧ decodeWord 0b0000_0000_1110_1110 = .ret := by decide
theorem test_decode_nnn : decodeWord 0b0001_1010_1011_1100 = .jp 0xABC ∧ decodeWord 0b0010_1010_1011_1100 = .call 0xABC ∧
    decodeWord 0b1010_1010_1011_1100 = .ldI 0xABC ∧ decodeWord 0b1011_1010_1011_1100 = .jpV0 0xABC := by decide
theorem test_decode_xnn : decodeWord 0b0011_1010_1011_1100 = .seImm 0xA 0xBC ∧
    decodeWord 0b0100_1010_1011_1100 = .sneImm 0xA 0xBC ∧ decodeWord 0b0110_1010_1011_1100 = .ldImm 0xA 0xBC ∧
    decodeWord 0b0111_1010_1011_1100 = .addImm 0xA 0xBC ∧ decodeWord 0b1100_1010_1011_1100 = .rnd 0xA 0xBC := by decide
theorem test_decode_xy : decodeWord 0b0101_0001_0010_0000 = .seReg 1 2 ∧ decodeWord 0b1001_0001_0010_0000 = .sneReg 1 2 ∧
    decodeWord 0b1000_0001_0010_0000 = .ldReg 1 2 ∧ decodeWord 0b1000_0001_0010_0001 = .orReg 1 2 ∧
    decodeWord 0b1000_0001_0010_0010 = .andReg 1 2 ∧ decodeWord 0b1000_0001_0010_0011 = .xorReg 1 2 := by decide
theorem test_decode_alu : decodeWord 0b1000_0001_0010_0100 = .addReg 1 2 ∧ decodeWord 0b1000_0001_0010_0101 = .subReg 1 2 ∧
    decodeWord 0b1000_0001_0010_0110 = .shr 1 2 ∧ decodeWord 0b1000_0001_0010_0111 = .subnReg 1 2 ∧
    decodeWord 0b1000_0001_0010_1110 = .shl 1 2 := by decide
theorem test_decode_xyn : decodeWord 0b1101_0001_0010_1111 = .drw 1 2 15 := by decide
theorem test_decode_keys : decodeWord 0b1110_0011_1001_1110 = .skp 3 ∧ decodeWord 0b1110_0011_1010_0001 = .sknp 3 := by decide
theorem test_decode_F : decodeWord 0b1111_0011_0000_0111 = .ldVxDT 3 ∧ decodeWord 0b1111_0011_0000_1010 = .ldVxK 3 ∧
    decodeWord 0b1111_0011_0001_0101 = .ldDTVx 3 ∧ decodeWord 0b1111_0011_0001_1000 = .ldSTVx 3 ∧
    decodeWord 0b1111_0011_0001_1110 = .addIVx 3 := by decide
theorem test_decode_F_memory : decodeWord 0b1111_0011_0010_1001 = .ldFVx 3 ∧ decodeWord 0b1111_0011_0011_0011 = .ldBVx 3 ∧
    decodeWord 0b1111_0011_0101_0101 = .storeRegs 3 ∧ decodeWord 0b1111_0011_0110_0101 = .loadRegs 3 := by decide
/-- V-UNR-1 to V-UNR-15, and the reading of the two words of S11. -/
theorem test_decode_unrecognized :
    ([0x0000, 0x0123, 0x00E1, 0x01E0, 0x0FEE, 0x00FF, 0x8008, 0x812F, 0xE000, 0xE19F, 0xE1A0, 0xF000, 0xF01F, 0xF075,
      0xF1FF] : List Word).all (fun w => decodeWord w == .unknown w) = true := by decide
theorem test_decode_dont_care : decodeWord 0x5001 = .seReg 0 0 ∧ decodeWord 0x9001 = .sneReg 0 0 ∧
    decodeWord 0x934F = .sneReg 3 4 := by decide
/-- Two bytes are one instruction, the first one high (S9); fewer are refused by name. -/
theorem test_decode_bytes : decode [0x60, 0x05, 0x70] = .ok (.ldImm 0 0x05, [0x70]) ∧
    decode [0x60] = .error .truncated ∧ decode [] = .error .truncated := ⟨rfl, rfl, rfl⟩
theorem test_decodeTableWord : decodeTableWord 16 0x8AB4 = some (.addReg 0xA 0xB) ∧
    decodeTableWord 16 0 = some (.unknown 0) := by decide
/-- R66: no two rows of the map overlap. Two rows overlap iff their patterns agree wherever both masks look. -/
theorem test_opcodeMap_disjoint :
    opcodeMap.Pairwise fun r q => r.pat &&& (r.mask &&& q.mask) ≠ q.pat &&& (r.mask &&& q.mask) := by decide
/-- R66: 34 rows, and each pattern lies inside its mask, so each row selects at least its own pattern. -/
theorem test_opcodeMap_rows : opcodeMap.length = 34 ∧ opcodeMap.all (fun r => r.selects r.pat) = true := by decide
/-- R62: words and their instructions, the other way. -/
theorem test_encode : encode (.drw 1 2 15) = 0xD12F ∧ encode (.loadRegs 7) = 0xF765 ∧ encode (.shr 0xE 7) = 0x8E76 ∧
    encodeBytes (.addImm 0 3) = [0x70, 0x03] := by decide

/-! ### One step on a small state -/

/-- `s` with the word `w` at 0x200 and `PC` there. -/
def at200 (w : Nat) (s : State) : State := s.withFetchWord 16 w
/-- The reset state with the listed registers. -/
def regs (l : List (Reg × Byte)) : State := l.foldl (fun s p => s.setReg p.1 p.2) State.reset
/-- `s` with bytes at `a`. -/
def withBytes (a : Nat) (bs : List Byte) (s : State) : State := s.store a bs
/-- `s` with the listed keys pressed. -/
def withKeys (l : List (Fin 16)) (s : State) : State := { s with keypad := Vector.ofFn fun k => l.contains k }
/-- What `f` sees after one step, if the step answers a next state. -/
def after {α : Type} (f : State → α) (s : State) : Option α := (nextState? (step s)).map f

theorem test_withFetchWord : (at200 0x8AB4 State.reset).fetchWord = 0x8AB4 ∧ (at200 0x8AB4 State.reset).pc = 0x200 := by decide
/-- A state that would not fetch is made to: halted, `PC` outside memory, an event to come. -/
theorem test_withFetchWord_halted :
    after (fun t => (t.reg 0, t.pc)) (at200 0x6005 { State.reset with pc := 0x1000, fault := 1, schedule := [.tick] }) =
      some (5, 0x202) := by decide

/-- R131, V-CLS-1. -/
theorem test_cls : after (fun t => (t.pixel 0 0, t.pixel 31 63, t.reg VF, t.pc))
    (at200 0x00E0 { regs [(15, 1)] with disp := Vector.replicate 32 0xFFFFFFFFFFFFFFFF }) =
      some (false, false, 1, 0x202) := by decide
/-- V-FLW-6. -/
theorem test_ret : after (fun t => (t.pc, t.sp, t.stack[0]))
    (at200 0x00EE { State.reset with pc := 0x20C, sp := 1, stack := State.reset.stack.set 0 0x204 }) =
      some (0x206, 0, 0x204) := by decide
/-- V-FLT-1. -/
theorem test_ret_underflow : after (fun t => (t.fault, t.pc, t.sp)) (at200 0x00EE State.reset) = some (3, 0x200, 0) := by decide
/-- V-FLW-1, V-FLW-2. -/
theorem test_jp : after (·.pc) (at200 0x1300 State.reset) = some 0x300 ∧
    after (·.pc) (at200 0x1301 State.reset) = some 0x301 := by decide
/-- V-FLW-5. -/
theorem test_call : after (fun t => (t.pc, t.sp, t.stack[15], t.fault))
    (at200 0x2300 { State.reset with pc := 0x250, sp := 15 }) = some (0x300, 16, 0x250, 0) := by decide
/-- V-FLT-2, the seventeenth cycle. -/
theorem test_call_overflow : after (fun t => (t.fault, t.sp, t.pc)) (at200 0x2200 { State.reset with sp := 16 }) =
    some (4, 16, 0x200) := by decide
/-- V-FLW-8. -/
theorem test_jpV0 : after (·.pc) (at200 0xBFFF (regs [(0, 0xFF)])) = some 0x10FE := by decide
/-- V-FLW-9, V-FLW-10. -/
theorem test_seImm : after (·.pc) (at200 0x3100 { regs [] with pc := 0x208 }) = some 0x20C ∧
    after (·.pc) (at200 0x3100 { regs [(1, 1)] with pc := 0x208 }) = some 0x20A := by decide
/-- V-FLW-11, V-FLW-12. -/
theorem test_sneImm : after (·.pc) (at200 0x4211 (regs [(2, 0x10)])) = some 0x204 ∧
    after (·.pc) (at200 0x4210 (regs [(2, 0x10)])) = some 0x202 := by decide
/-- V-FLW-13, V-FLW-14. -/
theorem test_seReg : after (·.pc) (at200 0x5340 (regs [(3, 0x7F), (4, 0x7F)])) = some 0x204 ∧
    after (·.pc) (at200 0x5340 (regs [(3, 1), (4, 2)])) = some 0x202 := by decide
/-- V-FLW-19, V-FLW-17. -/
theorem test_sneReg : after (fun t => (t.pc, t.outputs)) (at200 0x934F (regs [(3, 1), (4, 2)])) = some (0x204, []) ∧
    after (·.pc) (at200 0x9340 (regs [(3, 0x7F), (4, 0x7F)])) = some 0x202 := by decide

/-- V-ALU-4. -/
theorem test_ldImm : after (fun t => (t.reg 0, t.pc)) (at200 0x6005 State.reset) = some (0x05, 0x202) := by decide
/-- V-ALU-1, V-ALU-3. -/
theorem test_addImm : after (fun t => (t.reg 1, t.reg VF)) (at200 0x7101 (regs [(1, 0xFF), (15, 0x55)])) = some (0, 0x55) ∧
    after (·.reg VF) (at200 0x7F10 (regs [(15, 0xF8)])) = some 0x08 := by decide
/-- V-ALU-5. -/
theorem test_ldReg : after (fun t => (t.reg 1, t.reg 2)) (at200 0x8120 (regs [(2, 0xAB)])) = some (0xAB, 0xAB) := by decide
/-- V-ALU-6. -/
theorem test_orReg : after (fun t => (t.reg 1, t.reg VF)) (at200 0x8121 (regs [(1, 0xF0), (2, 0x0F), (15, 0x77)])) =
    some (0xFF, 0x77) := by decide
/-- V-ALU-7. -/
theorem test_andReg : after (·.reg 1) (at200 0x8122 (regs [(1, 0xF3), (2, 0x3F)])) = some 0x33 := by decide
/-- V-ALU-8, V-ALU-10. -/
theorem test_xorReg : after (·.reg 1) (at200 0x8123 (regs [(1, 0xFF), (2, 0x0F)])) = some 0xF0 ∧
    after (·.reg VF) (at200 0x8FF3 (regs [(15, 0xAA)])) = some 0 := by decide
/-- V-ALU-12, V-ALU-16. -/
theorem test_addReg : after (fun t => (t.reg 1, t.reg VF)) (at200 0x8124 (regs [(1, 0x80), (2, 0x80)])) = some (0, 1) ∧
    after (fun t => (t.reg 1, t.reg VF)) (at200 0x81F4 (regs [(1, 0xFE), (15, 3)])) = some (1, 1) := by decide
/-- V-ALU-14, V-ALU-15. -/
theorem test_addReg_into_VF : after (·.reg VF) (at200 0x8F24 (regs [(15, 0xFF), (2, 1)])) = some 1 ∧
    after (·.reg VF) (at200 0x8F24 (regs [(15, 1), (2, 1)])) = some 0 := by decide
/-- V-ALU-17, V-ALU-18. -/
theorem test_subReg : after (fun t => (t.reg 1, t.reg VF)) (at200 0x8125 (regs [(1, 7), (2, 7)])) = some (0, 1) ∧
    after (fun t => (t.reg 1, t.reg VF)) (at200 0x8125 (regs [(2, 1)])) = some (0xFF, 0) := by decide
/-- V-ALU-21, V-ALU-20. -/
theorem test_subReg_VF : after (fun t => (t.reg 1, t.reg VF)) (at200 0x81F5 (regs [(1, 0x10), (15, 1)])) = some (0x0F, 1) ∧
    after (·.reg VF) (at200 0x8F25 (regs [(15, 3), (2, 5)])) = some 0 := by decide
/-- V-ALU-24, V-ALU-26. -/
theorem test_shr : after (fun t => (t.reg 1, t.reg 2, t.reg VF)) (at200 0x8126 (regs [(1, 4), (2, 0xFF), (15, 9)])) =
      some (2, 0xFF, 0) ∧
    after (·.reg VF) (at200 0x8F06 (regs [(15, 0xFF)])) = some 0x7F := by decide
/-- V-ALU-27, V-ALU-28. -/
theorem test_subnReg : after (fun t => (t.reg 1, t.reg VF)) (at200 0x8127 (regs [(1, 3), (2, 5)])) = some (2, 1) ∧
    after (fun t => (t.reg 1, t.reg VF)) (at200 0x8127 (regs [(1, 5), (2, 3)])) = some (0xFE, 0) := by decide
/-- V-ALU-34, V-ALU-35. -/
theorem test_shl : after (fun t => (t.reg 1, t.reg VF)) (at200 0x810E (regs [(1, 0x81)])) = some (2, 1) ∧
    after (·.reg VF) (at200 0x8F0E (regs [(15, 0x81)])) = some 2 := by decide
/-- V-ALU-37 to V-ALU-39, the draw left free; the counter goes on. -/
theorem test_rnd (s : State) : (nextState? (exec (.rnd 3 0x0F) s)).map (fun t => (t.reg 3, t.rndDraws, t.pc)) =
    some (Config.rnd s.rndDraws &&& 0x0F, s.rndDraws + 1, s.pc + 2) := by
  simp [exec, execRnd, resultOnly, nextState?, State.rndByte]

/-- V-IDX-1. -/
theorem test_ldI : after (fun t => (t.i, t.pc)) (at200 0xA300 State.reset) = some (0x300, 0x202) := by decide
/-- V-IDX-3, V-IDX-4. -/
theorem test_addIVx : after (fun t => (t.i, t.reg VF, t.fault)) (at200 0xF21E { regs [(2, 1)] with i := 0xFFF }) =
      some (0x1000, 0, 0) ∧
    after (fun t => (t.i, t.reg VF)) (at200 0xF21E { regs [(2, 2), (15, 7)] with i := 0xFFFF }) = some (1, 7) := by decide
/-- V-IDX-5, V-IDX-6. -/
theorem test_ldFVx : after (·.i) (at200 0xF029 (regs [(0, 0x0A)])) = some 0x032 ∧
    after (·.i) (at200 0xF029 (regs [(0, 0xFF)])) = some 0x4FB := by decide
/-- V-IDX-13. -/
theorem test_ldBVx : after (fun t => (t.read 0xFFD, t.read 0xFFE, t.read 0xFFF, t.fault))
    (at200 0xF033 { regs [(0, 255)] with i := 0xFFD }) = some (2, 5, 5, 0) := by decide
/-- V-IDX-14. -/
theorem test_ldBVx_oob : after (fun t => (t.fault, t.pc, t.read 0xFFE, t.read 0xFFF))
    (at200 0xF033 { regs [(0, 255)] with i := 0xFFE }) = some (2, 0x200, 0, 0) := by decide
/-- V-IDX-15. -/
theorem test_storeRegs : after (fun t => (t.read 0x300, t.read 0x303, t.read 0x304, t.i))
    (at200 0xF355 { regs [(0, 0x11), (1, 0x22), (2, 0x33), (3, 0x44), (4, 0x99)] with i := 0x300 }) =
      some (0x11, 0x44, 0, 0x300) := by decide
/-- V-IDX-17, V-IDX-22. -/
theorem test_storeRegs_edges : after (fun t => (t.fault, t.pc, t.read 0xFFF))
      (at200 0xF155 { regs [(0, 0x11), (1, 0x22)] with i := 0xFFF }) = some (2, 0x200, 0) ∧
    after (fun t => (t.read 0x200, t.read 0x201, t.pc)) (at200 0xF055 { regs [] with i := 0x201 }) =
      some (0xF0, 0, 0x202) := by decide
/-- V-IDX-20. -/
theorem test_loadRegs : after (fun t => (t.reg 0, t.reg 1, t.reg 2, t.reg 3, t.reg 4))
    (at200 0xF365 (withBytes 0x300 [0x11, 0x22, 0x33, 0x44, 0x55] { regs [(4, 0x99)] with i := 0x300 })) =
      some (0x11, 0x22, 0x33, 0x44, 0x99) := by decide
/-- V-IDX-21. -/
theorem test_loadRegs_oob : after (fun t => (t.fault, t.pc, t.reg 0, t.reg 3))
    (at200 0xF365 { regs [(0, 1), (1, 2), (2, 3), (3, 4)] with i := 0xFFD }) = some (2, 0x200, 1, 4) := by decide

/-- V-DRW-1. -/
theorem test_drw_wrap : after (fun t => (t.pixel 31 62, t.pixel 31 5, t.pixel 31 63, t.reg VF))
    (at200 0xD011 (withBytes 0x300 [0x81] { regs [(0, 62), (1, 31)] with i := 0x300 })) =
      some (true, true, false, 0) := by decide
/-- V-DRW-7. -/
theorem test_drw_collision : after (fun t => (t.pixel 0 0, t.pixel 0 1, t.reg VF))
    (at200 0xD011 (withBytes 0x300 [0xC0] { regs [] with i := 0x300, disp := State.reset.disp.set 0 2 })) =
      some (true, false, 1) := by decide
/-- V-DRW-4, V-DRW-6. -/
theorem test_drw_edges : after (fun t => (t.reg VF, t.fault, t.pc)) (at200 0xD010 { regs [(0, 5), (1, 5), (15, 1)] with
      i := 0xFFFF }) = some (0, 0, 0x202) ∧
    after (fun t => (t.reg VF, t.fault, t.pc)) (at200 0xD012 { regs [(15, 1)] with i := 0xFFF }) = some (1, 2, 0x200) := by
  decide

/-- V-KEY-1, V-KEY-3. -/
theorem test_skp : after (·.pc) (at200 0xE29E (withKeys [7] (regs [(2, 0x07)]))) = some 0x204 ∧
    after (·.pc) (at200 0xE29E (withKeys [7] (regs [(2, 0x17)]))) = some 0x204 := by decide
/-- V-KEY-4, V-KEY-5. -/
theorem test_sknp : after (·.pc) (at200 0xE2A1 (regs [(2, 0x07)])) = some 0x204 ∧
    after (·.pc) (at200 0xE2A1 (withKeys [7] (regs [(2, 0x07)]))) = some 0x202 := by decide
/-- V-KEY-6, V-KEY-7. -/
theorem test_ldVxK : after (fun t => (t.reg 2, t.pc)) (at200 0xF20A (regs [(2, 0x55)])) = some (0x55, 0x200) ∧
    after (fun t => (t.reg 2, t.pc)) (at200 0xF20A (withKeys [7, 0xB] (regs []))) = some (7, 0x202) := by decide
/-- V-TMR-1. -/
theorem test_ldVxDT : after (fun t => (t.reg 1, t.dt)) (at200 0xF107 { State.reset with dt := 2 }) = some (2, 2) := by decide
/-- V-TMR-2. -/
theorem test_ldDTVx : after (·.dt) (at200 0xF015 (regs [(0, 3)])) = some 3 := by decide
/-- V-TMR-3. -/
theorem test_ldSTVx : after (·.st) (at200 0xF418 (regs [(4, 0x1E)])) = some 30 := by decide
/-- V-UNR-2. -/
theorem test_unknown : after (fun t => (t.pc, t.outputs, t.sp)) (at200 0x0123 { State.reset with sp := 1 }) =
    some (0x202, [.unimpl 0x200 0x0123], 1) := by decide

/-! ### Events -/

/-- V-TMR-4, V-TMR-5, V-TMR-7. -/
theorem test_tick : after (fun t => (t.dt, t.st)) { State.reset with dt := 1, st := 2, schedule := [.tick] } = some (0, 1) ∧
    after (fun t => (t.dt, t.st)) { State.reset with dt := 0, st := 1, schedule := [.tick] } = some (0, 0) ∧
    after (fun t => (t.dt, t.fault)) { State.reset with fault := 3, dt := 5, schedule := [.tick] } = some (4, 3) := by decide
/-- V-LD-4: the tail of the first image stays. -/
theorem test_loadRom : after (fun t => (t.read 0x200, t.read 0x201, t.read 0x203, t.pc))
    (withBytes 0x200 [0xAA, 0xBB, 0xCC, 0xDD] { State.reset with schedule := [.loadRom [0x11]] }) =
      some (0x11, 0xBB, 0xDD, 0x200) := by decide
/-- V-FLT-8, V-RST-1. -/
theorem test_reset : after (fun t => (t.fault, t.pc, t.read 0x000, t.read 0x04F, t.read 0x050))
    (withBytes 0 [1] { State.reset with fault := 2, pc := 7, schedule := [.reset] }) =
      some (0, 0x200, 0xF0, 0x80, 0) := by decide
/-- R175. -/
theorem test_setKeys : after (fun t => (t.key 3, t.key 4))
    { State.reset with schedule := [.setKeys (Vector.ofFn fun k => k == 3)] } = some (true, false) := by decide
/-- V-FLT-5, the second cycle; V-FLT-7. -/
theorem test_fetch_oob : after (fun t => (t.fault, t.pc)) { State.reset with pc := 0xFFF } = some (1, 0xFFF) ∧
    after (fun t => (t.fault, t.pc, t.outputs)) { State.reset with fault := 2 } = some (2, 0x200, []) := by decide
/-- V-FLT-6: the word at 0xFFE is fetched. -/
theorem test_fetch_last : after (fun t => (t.pc, t.outputs)) { State.reset with pc := 0xFFE } =
    some (0x1000, [.unimpl 0xFFE 0]) := by decide
/-- Memory keeps its canonical form: writing what an unlisted address reads as removes the entry. -/
theorem test_memory_canonical : (((State.reset.store 0x300 [7]).store 0x300 [0]).mem = []) ∧
    ((State.reset.store 0x301 [7]).store 0x300 [8]).mem = [(0x300, 8), (0x301, 7)] ∧
    (State.reset.store 0 [0xF0]).mem = [] := by decide
/-- R190 with another `FONTSET`: the Reset event loads the machine's own. -/
theorem test_reset_other_font : after (fun t => (t.read 0x000, t.read 0x04F, t.read 0x050))
    (withBytes 0 [1] { State.resetWith (Vector.replicate 80 0xAB) with schedule := [.reset] }) = some (0xAB, 0xAB, 0) := by decide
/-- An endless frame of a Tick and a Cycle: after three steps two Ticks and one Cycle have taken place (R199, R200). -/
theorem test_endless_frame :
    (nextState? (runs 3 { State.reset with dt := 5, afterwards := .again [.tick, .cycle] })).map (fun t => (t.dt, t.pc)) =
      some (3, 0x202) := by decide
/-- The free endless schedule: its next event, whatever it is, and its counter one higher. -/
theorem test_free_schedule : ({ State.reset with afterwards := .free 7 } : State).takeEvent =
    (Config.hostEvent 7, { State.reset with afterwards := .free 8 }) := rfl

/-! ### Assembly notation -/

/-- R72 and the listing of S8. -/
theorem test_text : textOf (.drw 1 2 15) = "DRW V1, V2, 0xF".toList ∧ textOf (.ldImm 0 0xDE) = "LD V0, 0xDE".toList ∧
    textOf (.storeRegs 3) = "LD [I], V3".toList ∧ textOf (.jp 0x216) = "JP 0x216".toList ∧
    textOf (.unknown 0x0123) = "UNKNOWN 0x0123".toList := by decide
/-- The head of the image of S8, and a `DB` line (R73). -/
theorem test_assemble : assemble [.instr (.ldImm 0 0xDE), .instr (.ldImm 1 0xAD), .db [0x12], .instr (.storeRegs 3)] =
    [0x60, 0xDE, 0x61, 0xAD, 0x12, 0xF3, 0x55] := by decide

/-! ### Witnesses: a state and operands that meet the hypotheses of each statement, clause by clause

The `DecodesAs` clauses of the statements are met by each row's own pattern: `test_opcodeMap_rows`. -/

/-- Does the instruction answer a next state in which `p` holds? -/
def runsTo (i : Instr) (s : State) (p : State → Bool) : Bool :=
  match exec i s with
  | .next t => p t
  | .fault _ => false
  | .refused _ => false

/-- What `runsTo` checks, as the hypothesis of a statement. -/
theorem runsTo_spec {i : Instr} {s : State} {p : State → Bool} (h : runsTo i s p = true) :
    ∃ t, exec i s = .next t ∧ p t = true := by
  unfold runsTo at h
  split at h
  · next t ht => exact ⟨t, ht, h⟩
  · cases h
  · cases h

theorem witness_ResetPutsEveryPartAtItsValue : (∃ f, State.reset = State.resetWith f) ∧
    ∃ s t : State, s.fault = 2 ∧ applyEvent .reset s = .next t ∧ t.fault = 0 :=
  ⟨⟨_, rfl⟩, { State.reset with fault := 2 }, _, rfl, rfl, rfl⟩
theorem witness_LoadRomCopiesOrRefuses : ([] : List Byte).length ≤ 3584 ∧ (List.replicate 3584 (0xAA : Byte)).length ≤ 3584 ∧
    3584 < (List.replicate 3585 (0xAA : Byte)).length := by
  simp only [List.length_replicate, List.length_nil]; omega
theorem witness_BootRunsTheImageFromItsFirstWord : ((0x12 : Byte) :: 0x00 :: []).length ≤ 3584 ∧
    ((0x12 : Byte) :: 0x00 :: List.replicate 3582 0).length ≤ 3584 := by
  simp only [List.length_cons, List.length_replicate, List.length_nil]; omega
theorem witness_SetKeysWritesTheKeypadAndCyclesLeaveIt :
    ∃ t, cycle (withKeys [7] (at200 0xE29E (regs [(2, 7)]))) = .next t ∧ t.pc = 0x204 := ⟨_, rfl, rfl⟩
theorem witness_HaltedCoreWaitsForReset : ({ State.reset with fault := 4 } : State).fault ≠ 0 ∧ Event.tick ≠ .reset := by decide
theorem witness_StepRunsTheDecodedInstruction :
    let s := { at200 0x8AB4 State.reset with pc := 0x200, schedule := [.cycle, .tick] }
    s.takeEvent = (.cycle, { s with schedule := [.tick] }) ∧ s.fault = 0 ∧ s.pc.toNat ≤ 0x0FFE ∧ decode [s.read s.pc.toNat, s.read (s.pc.toNat + 1)] = .ok (.addReg 0xA 0xB, []) ∧
    (Instr.addReg 0xA 0xB).wf = true ∧ s.schedule = .cycle :: [.tick] := ⟨rfl, rfl, by decide, rfl, rfl, rfl⟩
/-- The last address a fetch may have, with nothing on the schedule. -/
theorem witness_StepRunsTheDecodedInstruction_last :
    let s := { State.reset with pc := 0x0FFE }
    s.fault = 0 ∧ s.pc.toNat ≤ 0x0FFE ∧ decode [s.read s.pc.toNat, s.read (s.pc.toNat + 1)] = .ok (.unknown 0, []) ∧
    (Instr.unknown 0).wf = true ∧ s.schedule = [] ∧ s.afterwards = .cycles := ⟨rfl, by decide, rfl, rfl, rfl, rfl⟩
theorem witness_StepTakesTheNextEvent : ({ State.reset with schedule := [.tick] } : State).schedule = .tick :: [] ∧
    (State.reset.schedule = [] ∧ State.reset.afterwards = .cycles) ∧
    ({ State.reset with afterwards := .again [] } : State).afterwards = .again [] ∧
    ({ State.reset with afterwards := .again [.tick] } : State).afterwards = .again (.tick :: []) ∧
    ({ State.reset with afterwards := .free 0 } : State).afterwards = .free 0 := by decide
theorem witness_TimersRunOutUnderAnEndlessFrame :
    let s := { at200 0x1200 State.reset with dt := 255, st := 1, afterwards := .again [.cycle, .tick] }
    s.finished = true ∧ s.schedule = [] ∧ s.afterwards = .again [.cycle, .tick] ∧ Event.tick ∈ [Event.cycle, .tick] ∧
    Event.reset ∉ [Event.cycle, .tick] ∧ ∀ data, Event.loadRom data ∉ [Event.cycle, .tick] :=
  ⟨by decide, rfl, rfl, by decide, by decide, fun _ => by simp⟩
/-- The other way in: a halted core, the shortest frame. -/
theorem witness_TimersRunOutUnderAnEndlessFrame_halted :
    let s := { State.reset with fault := 2, dt := 3, afterwards := .again [.tick] }
    s.fault ≠ 0 ∧ s.schedule = [] ∧ s.afterwards = .again [.tick] ∧ Event.tick ∈ [Event.tick] ∧
    Event.reset ∉ [Event.tick] ∧ ∀ data, Event.loadRom data ∉ [Event.tick] :=
  ⟨by decide, rfl, rfl, by decide, by decide, fun _ => by simp⟩
theorem witness_FetchOutsideMemoryFaults : ({ State.reset with pc := 0xFFF } : State).fault = 0 ∧
    0x0FFE < ({ State.reset with pc := 0xFFF } : State).pc.toNat ∧
    0x0FFE < ({ State.reset with pc := 0xFFFF } : State).pc.toNat := by decide
theorem witness_EveryInstructionSetsPcAsTabled :
    (∃ t, State.reset.fault = 0 ∧ exec (.jp 0x300) State.reset = .next t ∧ t.fault = 0) ∧
    (∃ t, State.reset.fault = 0 ∧ exec .ret State.reset = .next t ∧ t.fault ≠ 0) :=
  ⟨⟨_, rfl, rfl, rfl⟩, ⟨_, rfl, rfl, by decide⟩⟩
theorem witness_DecodeInvertsEncode : (Instr.drw 1 2 15).wf = true ∧ (Instr.unknown 0xF1FF).wf = true := by decide
theorem witness_JumpSetsPcExactly : (0x200 : BitVec 12).toNat = State.reset.pc.toNat ∧ State.reset.fault = 0 := by decide
theorem witness_CallPushesItsOwnAddress : State.reset.sp.toNat < 16 ∧ ({ State.reset with sp := 15 } : State).sp.toNat < 16 ∧
    ({ State.reset with sp := 16 } : State).sp.toNat = 16 := by decide
theorem witness_ReturnPopsAndAddsTwo : ({ State.reset with sp := 1 } : State).sp.toNat = (0 : Fin 16).val + 1 ∧
    ({ State.reset with sp := 16 } : State).sp.toNat = (15 : Fin 16).val + 1 ∧ State.reset.sp.toNat = 0 := by decide
theorem witness_CallAndReturnStopWhereNoEntryExists : 16 < ({ State.reset with sp := 17 } : State).sp.toNat ∧
    16 < ({ State.reset with sp := 31 } : State).sp.toNat := by decide
theorem witness_ReturnResumesAfterTheCall : ∃ s t u : State, s.sp.toNat < 16 ∧ exec (.call 0x300) s = .next t ∧ u.sp = t.sp ∧
    u.stack = t.stack ∧ u.pc = 0x308 := ⟨State.reset, _, { State.reset with sp := 1, stack := State.reset.stack.set 0 0x200, pc := 0x308 },
      by decide, rfl, rfl, rfl, rfl⟩
theorem witness_SkipsOnKeys : (7 : Fin 16).val = ((regs [(2, 0x17)]).reg 2).toNat % 16 ∧
    (15 : Fin 16).val = ((regs [(2, 0xFF)]).reg 2).toNat % 16 := by decide
theorem witness_VfAsOperandOfFlagWriters : (1 : Reg) ≠ VF ∧ (2 : Reg) ≠ VF ∧ 0xFF = ((regs [(15, 0xFF)]).reg VF).toNat ∧
    runsTo (.addReg VF 2) (regs [(15, 0xFF)]) (fun _ => true) = true ∧
    runsTo (.addReg 1 VF) (regs [(15, 0xFF)]) (fun _ => true) = true ∧
    runsTo (.addReg VF VF) (regs [(15, 0xFF)]) (fun _ => true) = true ∧
    runsTo (.subReg VF 2) (regs [(15, 0xFF)]) (fun _ => true) = true ∧
    runsTo (.subReg 1 VF) (regs [(15, 0xFF)]) (fun _ => true) = true ∧
    runsTo (.subReg VF VF) (regs [(15, 0xFF)]) (fun _ => true) = true := by decide
theorem witness_VfAsOperandOfFlagWriters_rest : runsTo (.subnReg VF 2) (regs [(15, 0xFF)]) (fun _ => true) = true ∧
    runsTo (.subnReg 1 VF) (regs [(15, 0xFF)]) (fun _ => true) = true ∧
    runsTo (.subnReg VF VF) (regs [(15, 0xFF)]) (fun _ => true) = true ∧
    runsTo (.shr 1 VF) (regs [(15, 0xFF)]) (fun _ => true) = true ∧
    runsTo (.shl 1 VF) (regs [(15, 0xFF)]) (fun _ => true) = true ∧
    runsTo (.shr VF 2) (regs [(15, 0xFF)]) (fun _ => true) = true ∧
    runsTo (.shl VF 2) (regs [(15, 0xFF)]) (fun _ => true) = true := by decide
theorem witness_BcdStoresThreeDigits : ({ State.reset with i := 0xFFD } : State).i.toNat + 2 ≤ 0xFFF ∧
    0xFFF < ({ State.reset with i := 0xFFE } : State).i.toNat + 2 := by decide
theorem witness_RegisterStoreWritesBlock : ({ State.reset with i := 0xFF0 } : State).i.toNat + (15 : Reg).val ≤ 0xFFF ∧
    0xFFF < ({ State.reset with i := 0xFF1 } : State).i.toNat + (15 : Reg).val ∧ (15 : Reg) ≤ 15 := by decide
theorem witness_RegisterLoadReadsBlock : ({ State.reset with i := 0xFFF } : State).i.toNat + (0 : Reg).val ≤ 0xFFF ∧
    0xFFF < ({ State.reset with i := 0xFFF } : State).i.toNat + (1 : Reg).val := by decide
theorem witness_StoreThenLoadRestoresRegisters : ∃ s t u : State, s.i.toNat + (3 : Reg).val ≤ 0xFFF ∧
    exec (.storeRegs 3) s = .next t ∧ u.i = t.i ∧ (∀ a, u.read a = t.read a) ∧ (2 : Reg) ≤ 3 ∧ u.reg 0 = 0 := by
  obtain ⟨t, ht, h⟩ := runsTo_spec (i := .storeRegs 3) (s := { regs [(0, 0xDE), (1, 0xAD)] with i := 0x300 })
    (p := fun t => t.i == 0x300) (by decide)
  exact ⟨_, t, t.setReg 0 0, by decide, ht, rfl, fun _ => rfl, by decide, by simp⟩
/-- A store over the whole next word, and one that ends in its first byte. -/
theorem witness_StoredCodeIsFetchedAtOnce : ∃ s t : State, s.fault = 0 ∧ s.i.toNat + (1 : Reg).val ≤ 0xFFF ∧
    exec (.storeRegs 1) s = .next t ∧ t.pc.toNat ≤ 0x0FFE ∧ s.i.toNat = t.pc.toNat := by
  obtain ⟨t, ht, h⟩ := runsTo_spec (i := .storeRegs 1) (s := { State.reset with pc := 0xFFC, i := 0xFFE })
    (p := fun t => t.pc == 0xFFE) (by decide)
  have h : t.pc = 0xFFE := by simpa using h
  exact ⟨_, t, by decide, by decide, ht, by rw [h]; decide, by rw [h]⟩
theorem witness_StoredCodeIsFetchedAtOnce_bcd : ∃ s t : State, s.fault = 0 ∧ s.i.toNat + 2 ≤ 0xFFF ∧
    exec (.ldBVx 0) s = .next t ∧ t.pc.toNat ≤ 0x0FFE ∧ s.i.toNat + 2 = t.pc.toNat := by
  obtain ⟨t, ht, h⟩ := runsTo_spec (i := .ldBVx 0) (s := { State.reset with i := 0x200 })
    (p := fun t => t.pc == 0x202) (by decide)
  have h : t.pc = 0x202 := by simpa using h
  exact ⟨_, t, by decide, by decide, ht, by rw [h]; decide, by rw [h]; rfl⟩
theorem witness_StoredCodeIsFetchedAtOnce_load : ∃ t : State, State.reset.fault = 0 ∧ [(0x12 : Byte)].length ≤ 3584 ∧
    applyEvent (.loadRom [0x12]) State.reset = .next t ∧ t.pc.toNat ≤ 0x0FFE := ⟨_, rfl, by decide, rfl, by decide⟩
theorem witness_DrawEqualsParallelForm :
    ((0 : Fin 16).val = 0 ∨ ({ State.reset with i := 0xFFFF } : State).i.toNat + (0 : Fin 16).val - 1 ≤ 0xFFF) ∧
    ((15 : Fin 16).val = 0 ∨ ({ State.reset with i := 0xFF1 } : State).i.toNat + (15 : Fin 16).val - 1 ≤ 0xFFF) := by decide
/-- Both the collision clauses of a draw: a lit pixel under the sprite of digit 0, and an empty display. -/
theorem witness_DrawEqualsParallelForm_collision :
    (∃ r c, SpriteCovers { State.reset with disp := Vector.replicate 32 0xFFFFFFFFFFFFFFFF } 0 1 1 r c ∧
      ({ State.reset with disp := Vector.replicate 32 0xFFFFFFFFFFFFFFFF } : State).pixel r c = true) ∧
    ¬ ∃ r c, SpriteCovers State.reset 0 1 1 r c ∧ State.reset.pixel r c = true := by
  refine ⟨⟨0, 0, ⟨0, 0, by decide, by decide, by decide, by decide, by decide⟩, by decide⟩, ?_⟩
  rintro ⟨r, c, -, h⟩
  simp [State.pixel, Display.pixel, State.reset, State.resetWith] at h
theorem witness_DrawOutsideMemoryFaults : 0 < (2 : Fin 16).val ∧
    0xFFF < ({ State.reset with i := 0xFFF } : State).i.toNat + (2 : Fin 16).val - 1 := by decide
theorem witness_DrawTwiceRestoresDisplay : ∃ s t t' u : State,
    ((5 : Fin 16).val = 0 ∨ s.i.toNat + (5 : Fin 16).val - 1 ≤ 0xFFF) ∧ exec (.drw 0 1 5) s = .next t ∧
    t'.reg 0 = s.reg 0 ∧ t'.reg 1 = s.reg 1 ∧ t'.i = s.i ∧
    (∀ k, k < (5 : Fin 16).val → t'.read (s.i.toNat + k) = s.read (s.i.toNat + k)) ∧
    (∀ r c, t'.pixel r c = t.pixel r c) ∧ exec (.drw 0 1 5) t' = .next u :=
  ⟨State.reset, State.reset.drawn2D 0 1 5, State.reset.drawn2D 0 1 5, (State.reset.drawn2D 0 1 5).drawn2D 0 1 5,
    by decide, rfl, rfl, rfl, rfl, fun _ _ => rfl, fun _ _ => rfl, rfl⟩
theorem witness_KeyWaitTakesLowestKeyOrStalls :
    ((withKeys [7, 0xB] State.reset).key 7 = true ∧ ∀ j, j < (7 : Fin 16) → (withKeys [7, 0xB] State.reset).key j = false) ∧
    ((withKeys [0] State.reset).key 0 = true ∧ ∀ j, j < (0 : Fin 16) → (withKeys [0] State.reset).key j = false) ∧
    ((withKeys [15] State.reset).key 15 = true ∧ ∀ j, j < (15 : Fin 16) → (withKeys [15] State.reset).key j = false) ∧
    (∀ k, State.reset.key k = false) := by decide
theorem witness_UnrecognizedIsReportedNoOp : unrecognized 0x0000 = true ∧ unrecognized 0x8008 = true ∧
    unrecognized 0xE1A0 = true ∧ unrecognized 0xF075 = true := by decide
/-- One witness for each instruction that can fault. -/
theorem witness_FaultsArePreciseAndOfTheNamedCause : State.reset.fault = 0 ∧
    runsTo .ret State.reset (fun t => t.fault != 0) = true ∧
    runsTo (.call 0x200) { State.reset with sp := 16 } (fun t => t.fault != 0) = true ∧
    runsTo (.drw 0 0 2) { State.reset with i := 0xFFF } (fun t => t.fault != 0) = true ∧
    runsTo (.ldBVx 0) { State.reset with i := 0xFFE } (fun t => t.fault != 0) = true ∧
    runsTo (.storeRegs 1) { State.reset with i := 0xFFF } (fun t => t.fault != 0) = true ∧
    runsTo (.loadRegs 1) { State.reset with i := 0xFFF } (fun t => t.fault != 0) = true := by decide
theorem witness_InstructionsWriteOnlyTheirParts : runsTo (.addReg 1 2) State.reset (fun t => t.fault == 0) = true ∧
    runsTo .ret State.reset (fun t => t.fault != 0) = true := by decide
theorem witness_RegistersChangeOnlyAsTabled :
    (runsTo (.addReg 1 2) State.reset (fun _ => true) = true ∧ namesDestination (.addReg 1 2) 3 = false ∧ (3 : Reg) ≠ VF) ∧
    (runsTo (.addImm 1 2) State.reset (fun _ => true) = true ∧ namesDestination (.addImm 1 2) VF = false ∧
      writesFlag (.addImm 1 2) = false) := by decide
theorem witness_UnreadRegistersHaveNoInfluence : readsReg (.shr 1 2) 2 = false ∧ readsReg (.ldImm 1 2) 1 = false ∧
    runsTo (.shr 1 2) State.reset (fun _ => true) = true ∧ runsTo (.ldImm 1 2) State.reset (fun _ => true) = true := by decide
theorem witness_SoundTimerHasNoInfluence : runsTo (.ldSTVx 1) State.reset (fun _ => true) = true ∧
    runsTo (.ldVxDT 1) State.reset (fun _ => true) = true := by decide
theorem witness_FinishedRunIsFixed : (at200 0x1200 State.reset).finished = true := by decide
theorem witness_Inv : State.reset.Inv := ⟨by decide, by decide, by decide, by decide, by decide⟩
theorem witness_StepKeepsTheInvariant : State.reset.Inv ∧ ∃ t, step State.reset = .next t := ⟨witness_Inv, _, rfl⟩
theorem witness_InvariantStatesNeverStop : State.reset.Inv ∧ State.reset.sp.toNat ≤ 16 := ⟨witness_Inv, by decide⟩

end Sys2Proof.Tests
end

section

namespace Sys2Proof.Machine

/-- With `SP` above 16 a call finds neither the full stack that faults nor an entry to push into (`10_state.md` R17). -/
theorem execCall_stops_above_sixteen (nnn : BitVec 12) (s : State) (h : 16 < s.sp.toNat) :
    execCall nnn s = .fault .stackEntryAbsent := by
  have hfull : s.sp ≠ 16 := by bv_omega
  rw [execCall, if_neg hfull, s.push_none s.pc (by omega)]

/-- With `SP` above 16 a return finds neither the empty stack that faults nor an entry to pop (`10_state.md` R17). -/
theorem execRet_stops_above_sixteen (s : State) (h : 16 < s.sp.toNat) : execRet s = .fault .stackEntryAbsent := by
  have hempty : s.sp ≠ 0 := by bv_omega
  rw [execRet, if_neg hempty, s.pop_none h]

/-- Settles O20: such an `SP` passes the test for the stack fault, and then the push or the pop has no entry. -/
theorem callAndReturnStopWhereNoEntryExists : Obligations.CallAndReturnStopWhereNoEntryExists :=
  fun nnn s h => ⟨execCall_stops_above_sixteen nnn s h, execRet_stops_above_sixteen s h⟩

end Sys2Proof.Machine
end

section

/-! What an instruction leaves of the state, said once for every instruction (`10_state.md` R11 to R23): it raises a fault
and writes `FAULT` alone, or it completes as the access tables say. -/

namespace Sys2Proof.Machine

/-! ### Frames of the state updates -/

theorem frame_refl (l : List Part) (s : State) : Frame l s s := by
  intro p _
  cases p <;> simp [Part.Same]

/-- Writing `PC` besides adds `PC` to the parts written. -/
theorem frame_pc {l : List Part} {s u : State} (h : Frame l s u) (a : Word) : Frame (.pc :: l) s { u with pc := a } := by
  intro p hp
  obtain ⟨hne, hl⟩ := List.ne_and_not_mem_of_not_mem_cons hp
  have same := h p hl
  cases p with
  | pc => exact absurd rfl hne
  | _ => exact same

theorem frame_v (s : State) (v : Vector Byte 16) : Frame [.v] s { s with v := v } := by
  intro p hp
  cases p <;> simp [Part.Same, State.read, State.pixel] at hp ⊢

theorem frame_v_rndDraws (s : State) (v : Vector Byte 16) (k : Nat) :
    Frame [.v, .rndDraws] s { s with v := v, rndDraws := k } := by
  intro p hp
  cases p <;> simp [Part.Same, State.read, State.pixel] at hp ⊢

theorem frame_v_disp (s : State) (v : Vector Byte 16) (d : Display) : Frame [.v, .disp] s { s with v := v, disp := d } := by
  intro p hp
  cases p <;> simp [Part.Same, State.read] at hp ⊢

theorem frame_disp (s : State) (d : Display) : Frame [.disp] s { s with disp := d } := by
  intro p hp
  cases p <;> simp [Part.Same, State.read, State.reg] at hp ⊢

theorem frame_i (s : State) (a : Word) : Frame [.i] s { s with i := a } := by
  intro p hp
  cases p <;> simp [Part.Same, State.read, State.pixel, State.reg] at hp ⊢

theorem frame_sp (s : State) (n : BitVec 5) : Frame [.sp] s { s with sp := n } := by
  intro p hp
  cases p <;> simp [Part.Same, State.read, State.pixel, State.reg] at hp ⊢

theorem frame_sp_stack (s : State) (n : BitVec 5) (k : Vector Word 16) :
    Frame [.sp, .stack] s { s with sp := n, stack := k } := by
  intro p hp
  cases p <;> simp [Part.Same, State.read, State.pixel, State.reg] at hp ⊢

theorem frame_dt (s : State) (b : Byte) : Frame [.dt] s { s with dt := b } := by
  intro p hp
  cases p <;> simp [Part.Same, State.read, State.pixel, State.reg] at hp ⊢

theorem frame_st (s : State) (b : Byte) : Frame [.st] s { s with st := b } := by
  intro p hp
  cases p <;> simp [Part.Same, State.read, State.pixel, State.reg] at hp ⊢

theorem frame_fault (s : State) (f : BitVec 3) : Frame [.fault] s { s with fault := f } := by
  intro p hp
  cases p <;> simp [Part.Same, State.read, State.pixel, State.reg] at hp ⊢

theorem frame_mem (s : State) (m : Memory) : Frame [.mem] s { s with mem := m } := by
  intro p hp
  cases p <;> simp [Part.Same, State.pixel, State.reg] at hp ⊢

theorem frame_outputs (s : State) (o : List Output) : Frame [.outputs] s { s with outputs := o } := by
  intro p hp
  cases p <;> simp [Part.Same, State.read, State.pixel, State.reg] at hp ⊢

/-! ### The parts no instruction, or only a call or a return, writes -/

theorem fault_notMem_partsWritten (i : Instr) : Part.fault ∉ partsWritten i := by
  cases i <;> simp [partsWritten]

theorem stack_notMem_partsWritten {i : Instr} (h : Part.sp ∉ partsWritten i) : Part.stack ∉ partsWritten i := by
  cases i with
  | call nnn => simp [partsWritten] at h
  | _ => simp [partsWritten]

theorem eq_ret_or_call_of_writes_sp {i : Instr} (h : Part.sp ∈ partsWritten i) : i = .ret ∨ ∃ nnn, i = .call nnn := by
  cases i with
  | ret => exact .inl rfl
  | call nnn => exact .inr ⟨nnn, rfl⟩
  | _ => simp [partsWritten] at h

/-! ### The completion of an instruction -/

/-- What a completed instruction leaves: the parts it does not write, the table's `PC` (R15), the registers that are neither
a destination nor the flag (R11, R12), and the canonical form of memory. -/
structure Completes (i : Instr) (s t : State) : Prop where
  frame : Frame (.pc :: partsWritten i) s t
  pc : newPC i s = some t.pc.toNat
  reg : ∀ r, namesDestination i r = false → (r ≠ VF ∨ writesFlag i = false) → t.reg r = s.reg r
  mem_wf : s.mem.wf s.fontset = true → t.mem.wf t.fontset = true

section
variable {i : Instr} {s u : State}

/-- An instruction that writes no register. -/
theorem completes_of_v_kept {l : List Part} {a : Word} (hframe : Frame l s u) (hparts : partsWritten i = l)
    (hv : Part.v ∉ l) (hpc : newPC i s = some a.toNat) (hmem : s.mem.wf s.fontset = true → u.mem.wf u.fontset = true) :
    Completes i s { u with pc := a } where
  frame := hparts ▸ frame_pc hframe a
  pc := hpc
  reg r _ _ := hframe .v hv r
  mem_wf := hmem

/-- An instruction that writes one register and no flag. -/
theorem completes_setReg {x : Reg} (b : Byte) (hparts : partsWritten i = [.v]) (hdest : namesDestination i x = true)
    (hpc : newPC i s = some (s.pc + 2).toNat) : Completes i s (s.setReg x b).advance where
  frame := hparts ▸ frame_pc (frame_v s _) _
  pc := hpc
  reg r hr _ := s.reg_setReg_ne b (by rintro rfl; simp [hdest] at hr)
  mem_wf := id

/-- An instruction that writes one register and the flag, in either order. -/
theorem completes_setReg_setVF {x y : Reg} (a b : Byte) (hparts : partsWritten i = [.v]) (hflag : writesFlag i = true)
    (hx : namesDestination i x = true ∨ x = VF) (hy : namesDestination i y = true ∨ y = VF)
    (hpc : newPC i s = some (s.pc + 2).toNat) : Completes i s ((s.setReg x a).setReg y b).advance where
  frame := hparts ▸ frame_pc (frame_v s _) _
  pc := hpc
  reg r hr hf := by
    have hVF : r ≠ VF := hf.resolve_right (by simp [hflag])
    have hne : ∀ z, namesDestination i z = true ∨ z = VF → r ≠ z := by
      rintro z (hz | rfl)
      · rintro rfl; simp [hz] at hr
      · exact hVF
    calc ((s.setReg x a).setReg y b).reg r = (s.setReg x a).reg r := State.reg_setReg_ne _ b (hne y hy)
      _ = s.reg r := s.reg_setReg_ne a (hne x hx)
  mem_wf := id

end

/-! ### The instructions that can fault -/

/-- An instruction faulted: it can, and wrote `FAULT` alone (`60_exceptions.md` R161). -/
def Faults (i : Instr) (s t : State) : Prop := canFault i = true ∧ ∃ c, t = { s with fault := Cause.code c }

theorem ret_faults_or_completes {s t : State} (h : execRet s = .next t) : Faults .ret s t ∨ Completes .ret s t := by
  rcases execRet_cases h with ⟨-, rfl⟩ | ⟨k, hk, rfl⟩
  · exact .inl ⟨rfl, _, rfl⟩
  · have hpc : newPC .ret s = some (s.stack[k.val] + 2).toNat := by simp [newPC, hk]
    exact .inr (completes_of_v_kept (frame_sp s (s.sp - 1)) rfl (by decide) hpc id)

theorem call_faults_or_completes {nnn : BitVec 12} {s t : State} (h : execCall nnn s = .next t) :
    Faults (.call nnn) s t ∨ Completes (.call nnn) s t := by
  rcases execCall_cases h with ⟨-, rfl⟩ | ⟨hlt, rfl⟩
  · exact .inl ⟨rfl, _, rfl⟩
  · have hpc : newPC (.call nnn) s = some (zextNNN nnn).toNat := by simp [newPC, zextNNN_toNat]
    exact .inr (completes_of_v_kept (frame_sp_stack s (s.sp + 1) _) rfl (by decide) hpc id)

theorem drw_faults_or_completes {x y : Reg} {n : Fin 16} {s t : State} (h : execDrw x y n s = .next t) :
    Faults (.drw x y n) s t ∨ Completes (.drw x y n) s t := by
  rcases execDrw_cases h with ⟨-, rfl⟩ | ⟨-, -, rfl⟩
  · exact .inr
      { frame := frame_pc (frame_v_disp s _ _) _
        pc := by simp [newPC, State.drawn2D]
        reg := fun r _ hf => by
          have hVF : r ≠ VF := hf.resolve_right (by simp [writesFlag])
          exact State.reg_setReg_ne _ _ hVF
        mem_wf := id }
  · exact .inl ⟨rfl, _, rfl⟩

/-- `Fx33` and `Fx55`: the bytes stored end at the highest address the range check covers. -/
theorem storeAtIndex_faults_or_completes {i : Instr} {m : Nat} {bs : List Byte} {s t : State}
    (h : storeAtIndex m bs s = .next t) (hlen : bs.length = m + 1) (hparts : partsWritten i = [.mem])
    (hfault : canFault i = true) (hpc : newPC i s = some (s.pc + 2).toNat) : Faults i s t ∨ Completes i s t := by
  rcases storeAtIndex_cases h with ⟨hm, rfl⟩ | ⟨-, rfl⟩
  · have inside : s.dataAddr 0 + bs.length ≤ Config.memSize := by simp only [State.dataAddr, hlen, Config.memSize]; omega
    exact .inr (completes_of_v_kept (frame_mem s _) hparts (by decide) hpc fun hwf => State.wf_store hwf inside)
  · exact .inl ⟨hfault, _, rfl⟩

theorem loadRegs_faults_or_completes {x : Reg} {s t : State} (h : execLoadRegs x s = .next t) :
    Faults (.loadRegs x) s t ∨ Completes (.loadRegs x) s t := by
  rcases execLoadRegs_cases h with ⟨-, rfl⟩ | ⟨-, rfl⟩
  · exact .inr
      { frame := frame_pc (frame_v s _) _
        pc := rfl
        reg := fun r hr _ => by
          have above : ¬ r.val < x.val + 1 := by
            simp only [namesDestination, decide_eq_false_iff_not, Fin.le_def] at hr
            omega
          simp [State.reg, loadBlock_getElem, above]
        mem_wf := id }
  · exact .inl ⟨rfl, _, rfl⟩

/-! ### The instructions that cannot -/

/-- `Fx0A`: a key taken, or the wait at the same `PC`. -/
theorem ldVxK_completes {x : Reg} {s t : State} (h : execLdVxK x s = .next t) : Completes (.ldVxK x) s t := by
  rcases execLdVxK_cases h with ⟨k, hk, rfl⟩ | ⟨hk, ht⟩
  · have pressed : ∃ k, s.key k = true := ⟨k, (State.firstKey_some hk).1⟩
    exact completes_setReg _ rfl (by simp [namesDestination]) (by simp [newPC, pressed])
  · subst ht
    have hpc : newPC (.ldVxK x) t = some t.pc.toNat := by
      simpa [newPC, State.firstKey_none hk] using t.pc.isLt
    exact ⟨frame_refl _ t, hpc, fun _ _ _ => rfl, id⟩

theorem rnd_completes (x : Reg) (nn b : Byte) (s : State) : Completes (.rnd x nn) s (s.drawn.setReg x b).advance where
  frame := frame_pc (frame_v_rndDraws s _ _) _
  pc := rfl
  reg r hr _ := s.drawn.reg_setReg_ne b (by simpa [namesDestination] using hr)
  mem_wf := id

theorem skipIf_completes {i : Instr} {s : State} {c : Bool} (hparts : partsWritten i = [])
    (hpc : newPC i s = some ((s.pc.toNat + if c = true then 4 else 2) % 65536)) : Completes i s (s.skipIf c) := by
  refine completes_of_v_kept (frame_refl [] s) hparts (by decide) ?_ id
  cases c <;> exact hpc

theorem jpV0_toNat (nnn : BitVec 12) (b : Byte) : (zextNNN nnn + zextByte b).toNat = nnn.toNat + b.toNat := by
  have := nnn.isLt
  have := b.isLt
  rw [BitVec.toNat_add, zextNNN_toNat, zextByte_toNat]
  omega

/-- Everything an instruction that answers a next state can do. -/
theorem exec_faults_or_completes {i : Instr} {s t : State} (h : exec i s = .next t) : Faults i s t ∨ Completes i s t := by
  cases i with
  | ret => exact ret_faults_or_completes h
  | call nnn => exact call_faults_or_completes h
  | drw x y n => exact drw_faults_or_completes h
  | ldBVx x => exact storeAtIndex_faults_or_completes h rfl rfl rfl rfl
  | storeRegs x => exact storeAtIndex_faults_or_completes h (s.length_regBlock x) rfl rfl rfl
  | loadRegs x => exact loadRegs_faults_or_completes h
  | ldVxK x => exact .inr (ldVxK_completes h)
  | rnd x nn =>
    obtain rfl := next_inj h
    exact .inr (rnd_completes x nn _ s)
  | ldImm x | addImm x | ldReg x | orReg x | andReg x | xorReg x | ldVxDT x =>
    obtain rfl := next_inj h
    exact .inr (completes_setReg _ rfl (by simp [namesDestination]) rfl)
  | addReg x | subReg x | subnReg x =>
    obtain rfl := next_inj h
    exact .inr (completes_setReg_setVF _ _ rfl rfl (.inl (by simp [namesDestination])) (.inr rfl) rfl)
  | shr x | shl x =>
    obtain rfl := next_inj h
    exact .inr (completes_setReg_setVF _ _ rfl rfl (.inr rfl) (.inl (by simp [namesDestination])) rfl)
  | jp nnn =>
    obtain rfl := next_inj h
    exact .inr (completes_of_v_kept (frame_refl [] s) rfl (by decide) (congrArg some (zextNNN_toNat nnn).symm) id)
  | jpV0 nnn =>
    obtain rfl := next_inj h
    exact .inr (completes_of_v_kept (frame_refl [] s) rfl (by decide) 
      (congrArg some (jpV0_toNat nnn _).symm) id)
  | seImm | sneImm | seReg | sneReg | skp | sknp =>
    obtain rfl := next_inj h
    exact .inr (skipIf_completes rfl (by simp [newPC]))
  | cls =>
    obtain rfl := next_inj h
    exact .inr (completes_of_v_kept (frame_disp s _) rfl (by decide) rfl id)
  | ldI | addIVx | ldFVx =>
    obtain rfl := next_inj h
    exact .inr (completes_of_v_kept (frame_i s _) rfl (by decide) rfl id)
  | ldDTVx x =>
    obtain rfl := next_inj h
    exact .inr (completes_of_v_kept (frame_dt s _) rfl (by decide) rfl id)
  | ldSTVx x =>
    obtain rfl := next_inj h
    exact .inr (completes_of_v_kept (frame_st s _) rfl (by decide) rfl id)
  | unknown op =>
    obtain rfl := next_inj h
    exact .inr (completes_of_v_kept (frame_outputs s _) rfl (by decide) rfl id)

end Sys2Proof.Machine
end

section

/-! The statements about what an instruction writes: `PC`, the parts of the state, the general registers. -/

namespace Sys2Proof.Machine

theorem cause_code_ne_zero (c : Cause) : Cause.code c ≠ 0 := by
  cases c <;> decide

theorem cause_code_le (c : Cause) : (Cause.code c).toNat ≤ 4 := by
  cases c <;> decide

theorem Completes.fault_eq {i : Instr} {s t : State} (h : Completes i s t) : t.fault = s.fault :=
  h.frame .fault (by simp [fault_notMem_partsWritten])

/-- Settles O11: a completed instruction keeps `FAULT` and has the table's `PC`; a faulting one writes `FAULT` alone. -/
theorem everyInstructionSetsPcAsTabled : Obligations.EveryInstructionSetsPcAsTabled := by
  intro i s t hs h
  rcases exec_faults_or_completes h with ⟨-, c, rfl⟩ | hc
  · exact ⟨fun h0 => absurd h0 (cause_code_ne_zero c), fun _ => rfl⟩
  · exact ⟨fun _ => hc.pc, fun hne => absurd (hc.fault_eq.trans hs) hne⟩

/-- Settles O49: the frame of a completed instruction, or of a fault. -/
theorem instructionsWriteOnlyTheirParts : Obligations.InstructionsWriteOnlyTheirParts := by
  intro i s t h
  rcases exec_faults_or_completes h with ⟨hcan, c, rfl⟩ | hc
  · exact .inr ⟨hcan, frame_fault s _⟩
  · exact .inl hc.frame

/-- Settles O50: a fault writes no register, and a completed instruction only its destinations and the flag. -/
theorem registersChangeOnlyAsTabled : Obligations.RegistersChangeOnlyAsTabled := by
  intro i s t r h hdest hflag
  rcases exec_faults_or_completes h with ⟨-, c, rfl⟩ | hc
  · rfl
  · exact hc.reg r hdest hflag

end Sys2Proof.Machine
end

section

/-! The invariant (`10_state.md` R16, R32): it holds after reset, and every event keeps it. -/

namespace Sys2Proof.Machine

/-- The reset state of every `FONTSET` meets the invariant. -/
theorem State.resetWith_inv (f : Fontset) : (State.resetWith f).Inv where
  pc_le := by simp [State.resetWith]
  sp_le := by simp [State.resetWith]
  fault_le := by simp [State.resetWith]
  stack_le := by simp [State.resetWith]
  mem_wf := Memory.wf_nil

/-- Settles O54: the default `FONTSET` is one of them. -/
theorem resetMeetsTheInvariant : Obligations.ResetMeetsTheInvariant := State.resetWith_inv Config.defaultFontset

theorem State.Inv.raise {s : State} (h : s.Inv) (c : Cause) : ({ s with fault := Cause.code c } : State).Inv :=
  { h with fault_le := cause_code_le c }

/-! ### Instructions, from a `PC` that can be fetched (R16) -/

theorem ret_keeps_inv {s t : State} (hs : s.Inv) (h : execRet s = .next t) : t.Inv := by
  rcases execRet_cases h with ⟨-, rfl⟩ | ⟨k, hk, rfl⟩
  · exact hs.raise _
  · have below : (s.sp - 1).toNat = k.val := by bv_omega
    exact { hs with
      pc_le := by
        have := hs.stack_le k (by omega)
        simp only [BitVec.toNat_add, BitVec.reduceToNat]
        omega
      sp_le := by simp only [below]; omega
      stack_le := fun j hj => hs.stack_le j (by simp only [below] at hj; omega) }

/-- The new entry is the address of the call itself, which was fetched (R18, R32). -/
theorem call_keeps_inv {nnn : BitVec 12} {s t : State} (hs : s.Inv) (hpc : s.pc.toNat ≤ 0x0FFE)
    (h : execCall nnn s = .next t) : t.Inv := by
  rcases execCall_cases h with ⟨-, rfl⟩ | ⟨hlt, rfl⟩
  · exact hs.raise _
  · have above : (s.sp + 1).toNat = s.sp.toNat + 1 := by bv_omega
    exact { hs with
      pc_le := by
        have := nnn.isLt
        simp only [zextNNN_toNat]
        omega
      sp_le := by simp only [above]; omega
      stack_le := fun j hj => by
        simp only [above] at hj
        by_cases hnew : s.sp.toNat = j.val
        · simpa [← hnew] using hpc
        · simpa [Vector.getElem_set_ne, hnew] using hs.stack_le j (by omega) }

/-- The table's `PC` of an instruction other than a call or a return, which alone write `SP` (R15, R16). -/
theorem newPC_le {i : Instr} {s : State} {n : Nat} (hsp : Part.sp ∉ partsWritten i) (hpc : s.pc.toNat ≤ 0x0FFE)
    (h : newPC i s = some n) : n ≤ 0x10FE := by
  cases i with
  | ret | call => simp [partsWritten] at hsp
  | jp nnn =>
    obtain rfl : nnn.toNat = n := by simpa [newPC] using h
    omega
  | jpV0 nnn =>
    obtain rfl : nnn.toNat + (s.reg 0).toNat = n := by simpa [newPC] using h
    omega
  | seImm | sneImm | seReg | sneReg | skp | sknp | ldVxK =>
    simp only [newPC, Option.some.injEq] at h
    split at h <;> omega
  | _ =>
    simp only [newPC, Option.some.injEq] at h
    omega

theorem Completes.keeps_inv {i : Instr} {s t : State} (h : Completes i s t) (hs : s.Inv) (hpc : s.pc.toNat ≤ 0x0FFE)
    (hsp : Part.sp ∉ partsWritten i) : t.Inv := by
  have sp_eq : t.sp = s.sp := h.frame .sp (by simp [hsp])
  have stack_eq : t.stack = s.stack := h.frame .stack (by simp [stack_notMem_partsWritten hsp])
  exact {
    pc_le := newPC_le hsp hpc h.pc
    sp_le := sp_eq ▸ hs.sp_le
    fault_le := h.fault_eq ▸ hs.fault_le
    stack_le := fun k hk => by simpa only [stack_eq] using hs.stack_le k (sp_eq ▸ hk)
    mem_wf := h.mem_wf hs.mem_wf }

theorem exec_keeps_inv {i : Instr} {s t : State} (hs : s.Inv) (hpc : s.pc.toNat ≤ 0x0FFE) (h : exec i s = .next t) :
    t.Inv := by
  by_cases hsp : Part.sp ∈ partsWritten i
  · rcases eq_ret_or_call_of_writes_sp hsp with rfl | ⟨nnn, rfl⟩
    · exact ret_keeps_inv hs h
    · exact call_keeps_inv hs hpc h
  · rcases exec_faults_or_completes h with ⟨-, c, rfl⟩ | hc
    · exact hs.raise c
    · exact hc.keeps_inv hs hpc hsp

/-! ### Events -/

theorem cycle_keeps_inv {s t : State} (hs : s.Inv) (h : cycle s = .next t) : t.Inv := by
  by_cases hfault : s.fault = 0
  · by_cases hpc : s.pc.toNat ≤ 0x0FFE
    · exact exec_keeps_inv hs hpc (cycle_runs hfault hpc ▸ h)
    · rw [cycle_fetchOob hfault (by omega)] at h
      exact next_inj h ▸ hs.raise .fetchOob
  · rw [cycle_halted hfault] at h
    exact next_inj h ▸ hs

theorem loadRomEvent_keeps_inv {s : State} (hs : s.Inv) (data : List Byte) : (loadRomEvent data s).Inv := by
  unfold loadRomEvent
  split
  · next hlen =>
    have inside : Config.progBase + data.length ≤ Config.memSize := by
      simp only [Config.progBase, Config.memSize, Config.maxRom] at hlen ⊢
      omega
    exact { hs with mem_wf := State.wf_store hs.mem_wf inside }
  · exact { hs with }

/-- A Tick and SetKeys write no part the invariant reads; a Reset gives those parts their reset values. -/
theorem applyEvent_keeps_inv {e : Event} {s t : State} (hs : s.Inv) (h : applyEvent e s = .next t) : t.Inv := by
  cases e with
  | cycle => exact cycle_keeps_inv hs h
  | reset => exact next_inj h ▸ { State.resetWith_inv s.fontset with }
  | loadRom data => exact next_inj h ▸ loadRomEvent_keeps_inv hs data
  | tick => exact next_inj h ▸ { hs with }
  | setKeys keys => exact next_inj h ▸ { hs with }

theorem takeEvent_keeps_inv {s : State} (hs : s.Inv) : s.takeEvent.2.Inv := by
  obtain ⟨l, a, h⟩ := s.takeEvent_snd
  exact h ▸ { hs with }

/-- Settles O55: taking the next event writes the schedule alone, and every event keeps the invariant. -/
theorem stepKeepsTheInvariant : Obligations.StepKeepsTheInvariant :=
  fun _ _ hs h => applyEvent_keeps_inv (takeEvent_keeps_inv hs) h

end Sys2Proof.Machine
end

section

/-! A register that an instruction does not read (`10_state.md` R12): the instruction overwrites it, or leaves it alone. -/

namespace Sys2Proof.Machine

/-- `u` is `t`, but for `V[r]`, which may hold `b`. -/
def SameButReg (r : Reg) (b : Byte) (t u : State) : Prop := u = t ∨ u = t.setReg r b

section
variable {r : Reg} {b : Byte} {s t u : State}

/-! ### The operations keep the relation -/

theorem State.setReg_setReg_same (s : State) (x : Reg) (a b : Byte) : (s.setReg x b).setReg x a = s.setReg x a := by
  simp [State.setReg]

theorem State.setReg_comm (s : State) {x y : Reg} (a b : Byte) (h : x ≠ y) :
    (s.setReg y b).setReg x a = (s.setReg x a).setReg y b := by
  have : y.val ≠ x.val := fun e => h (Fin.ext e.symm)
  simp [State.setReg, Vector.set_comm _ _ this]

theorem SameButReg.setReg (h : SameButReg r b t u) (x : Reg) (a : Byte) :
    SameButReg r b (t.setReg x a) (u.setReg x a) := by
  rcases h with rfl | rfl
  · exact .inl rfl
  · by_cases hx : x = r
    · subst hx
      exact .inl (t.setReg_setReg_same x a b)
    · exact .inr (t.setReg_comm a b hx)

theorem SameButReg.advance (h : SameButReg r b t u) : SameButReg r b t.advance u.advance := by
  rcases h with rfl | rfl
  · exact .inl rfl
  · exact .inr rfl

/-! ### What the shared operations read -/

theorem State.reg_setReg_of_unread {i : Instr} {x : Reg} (hr : readsReg i r = false) (hx : readsReg i x = true) :
    (s.setReg r b).reg x = s.reg x :=
  s.reg_setReg_ne b (by rintro rfl; simp [hx] at hr)

theorem firstKeyFrom_setReg (n : Nat) : ∀ k, firstKeyFrom (s.setReg r b) k n = firstKeyFrom s k n := by
  induction n with
  | zero => exact fun _ => rfl
  | succ n ih =>
    intro k
    have key_eq : (s.setReg r b).key (Fin.ofNat 16 k) = s.key (Fin.ofNat 16 k) := rfl
    simp only [firstKeyFrom, ih, key_eq]

theorem State.regBlock_setReg {x : Reg} (h : x < r) : (s.setReg r b).regBlock x = s.regBlock x := by
  apply List.ext_getElem
  · rw [State.length_regBlock, State.length_regBlock]
  · intro k hk _
    rw [State.length_regBlock] at hk
    have hne : (⟨k, by omega⟩ : Reg) ≠ r := by
      intro e
      have : k = r.val := congrArg Fin.val e
      rw [Fin.lt_def] at h
      omega
    rw [State.getElem_regBlock, State.getElem_regBlock, State.reg_setReg_ne _ _ hne]

/-- A load of `n` registers overwrites `V[r]` below `n` and leaves it from `n` on. -/
theorem loadBlock_set (rd : Nat → Byte) (a n : Nat) (v : Vector Byte 16) :
    loadBlock rd a n (v.set r b) = loadBlock rd a n v ∨ loadBlock rd a n (v.set r b) = (loadBlock rd a n v).set r b := by
  by_cases hr : r.val < n
  · refine .inl (Vector.ext fun k hk => ?_)
    simp only [loadBlock_getElem, Vector.getElem_set]
    grind
  · refine .inr (Vector.ext fun k hk => ?_)
    simp only [loadBlock_getElem, Vector.getElem_set]
    grind

theorem withDataRange_setReg {m : Nat} {k k' : State} (h : withDataRange m s k = .next t) (hk : SameButReg r b k k') :
    ∃ u, withDataRange m (s.setReg r b) k' = .next u ∧ SameButReg r b t u := by
  rcases withDataRange_cases h with ⟨hin, rfl⟩ | ⟨hout, rfl⟩
  · exact ⟨_, withDataRange_in hin, hk⟩
  · exact ⟨_, withDataRange_out hout, .inr rfl⟩

/-! ### The instructions with more than one outcome -/

theorem State.pop_setReg (h0 : s.sp ≠ 0) : (s.setReg r b).pop = s.pop.map fun p => (p.1, p.2.setReg r b) := by
  by_cases hle : s.sp.toNat ≤ 16
  · rw [(s.setReg r b).pop_eq h0 hle, s.pop_eq h0 hle]; rfl
  · rw [(s.setReg r b).pop_none (by simpa using hle), s.pop_none (by omega)]; rfl

theorem State.push_setReg (a : Word) : (s.setReg r b).push a = (s.push a).map (·.setReg r b) := by
  by_cases hlt : s.sp.toNat < 16
  · rw [(s.setReg r b).push_eq a hlt, s.push_eq a hlt]; rfl
  · rw [(s.setReg r b).push_none a (by simpa using hlt), s.push_none a (by omega)]; rfl

theorem execRet_setReg (h : execRet s = .next t) : execRet (s.setReg r b) = .next (t.setReg r b) := by
  have sp_eq : (s.setReg r b).sp = s.sp := rfl
  unfold execRet at h ⊢
  split at h
  · next h0 => rw [if_pos (sp_eq ▸ h0), next_inj h]; rfl
  · next h0 =>
    rw [if_neg (sp_eq ▸ h0), State.pop_setReg h0]
    split at h
    · next hp => rw [hp, next_inj h]; rfl
    · cases h

theorem execCall_setReg {nnn : BitVec 12} (h : execCall nnn s = .next t) :
    execCall nnn (s.setReg r b) = .next (t.setReg r b) := by
  have sp_eq : (s.setReg r b).sp = s.sp := rfl
  unfold execCall at h ⊢
  split at h
  · next h0 => rw [if_pos (sp_eq ▸ h0), next_inj h]; rfl
  · next h0 =>
    rw [if_neg (sp_eq ▸ h0), State.push_setReg, State.setReg_pc]
    split at h
    · next hp => rw [hp, next_inj h]; rfl
    · cases h

theorem execLdVxK_setReg {x : Reg} (h : execLdVxK x s = .next t) :
    ∃ u, execLdVxK x (s.setReg r b) = .next u ∧ SameButReg r b t u := by
  have same_key : (s.setReg r b).firstKey = s.firstKey := firstKeyFrom_setReg 16 0
  rcases execLdVxK_cases h with ⟨k, hk, rfl⟩ | ⟨hk, rfl⟩
  · exact ⟨_, by simp only [execLdVxK, same_key, hk], (SameButReg.setReg (.inr rfl) x _).advance⟩
  · exact ⟨_, by simp only [execLdVxK, same_key, hk], .inr rfl⟩

theorem State.drawn2D_setReg {x y : Reg} (n : Fin 16) (hx : (s.setReg r b).reg x = s.reg x)
    (hy : (s.setReg r b).reg y = s.reg y) : SameButReg r b (s.drawn2D x y n) ((s.setReg r b).drawn2D x y n) := by
  have blit_eq : (s.setReg r b).blit x y n = s.blit x y n := by
    unfold State.blit
    rw [hx, hy]
    rfl
  unfold State.drawn2D
  rw [blit_eq]
  exact (SameButReg.setReg (.inr rfl) VF _).advance

theorem execDrw_setReg {x y : Reg} {n : Fin 16} (hx : (s.setReg r b).reg x = s.reg x)
    (hy : (s.setReg r b).reg y = s.reg y) (h : execDrw x y n s = .next t) :
    ∃ u, execDrw x y n (s.setReg r b) = .next u ∧ SameButReg r b t u := by
  have drawn := State.drawn2D_setReg n hx hy
  unfold execDrw at h ⊢
  split at h
  · next hn => exact ⟨_, if_pos hn, next_inj h ▸ drawn⟩
  · next hn => simpa only [if_neg hn] using withDataRange_setReg h drawn

theorem execLoadRegs_setReg {x : Reg} (h : execLoadRegs x s = .next t) :
    ∃ u, execLoadRegs x (s.setReg r b) = .next u ∧ SameButReg r b t u := by
  refine withDataRange_setReg h (SameButReg.advance ?_)
  rcases loadBlock_set (r := r) (b := b) s.read (s.dataAddr 0) (x.val + 1) s.v with hv | hv
  · exact .inl (congrArg (fun v => { s with v := v }) hv)
  · exact .inr (congrArg (fun v => { s with v := v }) hv)

/-! ### Every instruction -/

theorem exec_setReg_of_unread {i : Instr} (hr : readsReg i r = false) (h : exec i s = .next t) :
    ∃ u, exec i (s.setReg r b) = .next u ∧ SameButReg r b t u := by
  have reg_eq {x : Reg} (hx : readsReg i x = true) : (s.setReg r b).reg x = s.reg x := State.reg_setReg_of_unread hr hx
  cases i with
  | ret => exact ⟨_, execRet_setReg h, .inr rfl⟩
  | call nnn => exact ⟨_, execCall_setReg h, .inr rfl⟩
  | ldVxK x => exact execLdVxK_setReg h
  | loadRegs x => exact execLoadRegs_setReg h
  | drw x y n => exact execDrw_setReg (reg_eq (by simp [readsReg])) (reg_eq (by simp [readsReg])) h
  | storeRegs x =>
    have above : x < r := by simpa [readsReg] using hr
    refine withDataRange_setReg h ?_
    rw [State.regBlock_setReg above]
    exact .inr rfl
  | ldBVx x =>
    refine withDataRange_setReg h ?_
    rw [reg_eq (by simp [readsReg])]
    exact .inr rfl
  | cls | jp | ldI | unknown =>
    obtain rfl := next_inj h
    exact ⟨_, rfl, .inr rfl⟩
  | ldImm x | ldVxDT x =>
    obtain rfl := next_inj h
    exact ⟨_, rfl, (SameButReg.setReg (.inr rfl) x _).advance⟩
  | rnd x nn =>
    obtain rfl := next_inj h
    exact ⟨_, rfl, (SameButReg.setReg (t := s.drawn) (.inr rfl) x _).advance⟩
  | addImm x =>
    obtain rfl := next_inj h
    refine ⟨_, rfl, ?_⟩
    rw [reg_eq (x := x) (by simp [readsReg])]
    exact (SameButReg.setReg (.inr rfl) x _).advance
  | ldReg x y =>
    obtain rfl := next_inj h
    refine ⟨_, rfl, ?_⟩
    rw [reg_eq (x := y) (by simp [readsReg])]
    exact (SameButReg.setReg (.inr rfl) x _).advance
  | orReg x y | andReg x y | xorReg x y =>
    obtain rfl := next_inj h
    refine ⟨_, rfl, ?_⟩
    rw [reg_eq (x := x) (by simp [readsReg]), reg_eq (x := y) (by simp [readsReg])]
    exact (SameButReg.setReg (.inr rfl) x _).advance
  | addReg x y | subReg x y | subnReg x y =>
    obtain rfl := next_inj h
    refine ⟨_, rfl, ?_⟩
    rw [reg_eq (x := x) (by simp [readsReg]), reg_eq (x := y) (by simp [readsReg])]
    exact ((SameButReg.setReg (.inr rfl) x _).setReg VF _).advance
  | shr x | shl x =>
    obtain rfl := next_inj h
    refine ⟨_, rfl, ?_⟩
    rw [reg_eq (x := x) (by simp [readsReg])]
    exact ((SameButReg.setReg (.inr rfl) VF _).setReg x _).advance
  | seReg x y | sneReg x y =>
    obtain rfl := next_inj h
    refine ⟨_, rfl, ?_⟩
    rw [reg_eq (x := x) (by simp [readsReg]), reg_eq (x := y) (by simp [readsReg])]
    exact .inr rfl
  | seImm x | sneImm x | skp x | sknp x | ldDTVx x | ldSTVx x | addIVx x | ldFVx x =>
    obtain rfl := next_inj h
    refine ⟨_, rfl, ?_⟩
    rw [reg_eq (x := x) (by simp [readsReg])]
    exact .inr rfl
  | jpV0 nnn =>
    obtain rfl := next_inj h
    refine ⟨_, rfl, ?_⟩
    rw [reg_eq (x := 0) (by simp [readsReg])]
    exact .inr rfl

end

/-- Settles O51: the second run ends in the state of the first, `V[r]` overwritten or still at the value set. -/
theorem unreadRegistersHaveNoInfluence : Obligations.UnreadRegistersHaveNoInfluence := by
  intro i s t r b hr h
  obtain ⟨u, hu, rfl | rfl⟩ := exec_setReg_of_unread (b := b) hr h
  · exact ⟨u, hu, frame_refl _ u, fun _ _ => rfl, .inl rfl⟩
  · refine ⟨_, hu, frame_v t _, fun q hq => ?_, .inr (t.reg_setReg_self r b)⟩
    exact t.reg_setReg_ne b (by simpa using hq)

end Sys2Proof.Machine
end

section

/-! The fetch (`20_memory.md` R42, R54): the two bytes a word is made of, and the word fetched after a store. -/

namespace Sys2Proof.Machine

/-! ### The bytes of a word -/

theorem slice_high_wordOfBytes (hi lo : Byte) : slice (wordOfBytes hi lo) 15 8 = hi.toNat := by
  have := hi.isLt
  have := lo.isLt
  simp only [slice, wordOfBytes, BitVec.toNat_ofNat]
  omega

theorem slice_low_wordOfBytes (hi lo : Byte) : slice (wordOfBytes hi lo) 7 0 = lo.toNat := by
  have := lo.isLt
  simp only [slice, wordOfBytes, BitVec.toNat_ofNat]
  omega

/-- Settles O9: the fetched word is made of the bytes at `PC` and `PC + 1`, each read back from its half. -/
theorem fetchIsBigEndian : Obligations.FetchIsBigEndian := fun s => by
  rw [s.fetchWord_eq]
  exact ⟨slice_high_wordOfBytes _ _, slice_low_wordOfBytes _ _⟩

/-! ### The Cycle after a store -/

/-- Where memory is that of `s` with `bs` stored at `a`, the word at `PC` is fetched from under the store. -/
theorem State.fetchWord_of_read_store {s t : State} {a : Nat} {bs : List Byte}
    (hmem : ∀ b, t.read b = (s.store a bs).read b) : t.fetchWord = s.wordOver a bs t.pc.toNat := by
  rw [t.fetchWord_eq, hmem, hmem, State.wordOver, s.byteOver_eq, s.byteOver_eq]

theorem cycle_of_read_store {s t : State} {a : Nat} {bs : List Byte} (hmem : ∀ b, t.read b = (s.store a bs).read b)
    (hfault : t.fault = 0) (hpc : t.pc.toNat ≤ 0x0FFE) :
    cycle t = exec (decodeWord (s.wordOver a bs t.pc.toNat)) t := by
  rw [cycle_runs hfault hpc, State.fetchWord_of_read_store hmem]

/-- `Fx33` and `Fx55`, their bytes inside memory: stored without a fault, before `PC` moves on. -/
theorem cycle_after_storeAtIndex {m : Nat} {bs : List Byte} {s t : State} (hfault : s.fault = 0)
    (hin : s.i.toNat + m ≤ 0xFFF) (h : storeAtIndex m bs s = .next t) (hpc : t.pc.toNat ≤ 0x0FFE) :
    cycle t = exec (decodeWord (s.wordOver (s.dataAddr 0) bs t.pc.toNat)) t := by
  rcases storeAtIndex_cases h with ⟨-, rfl⟩ | ⟨hout, -⟩
  · exact cycle_of_read_store (fun _ => rfl) hfault hpc
  · omega

theorem loadRomEvent_fits {data : List Byte} (hlen : data.length ≤ 3584) (s : State) :
    loadRomEvent data s = s.store 0x200 data := if_pos hlen

/-- A LoadRom that fits is a store at 0x200 (`70_reset_and_hazards.md` R193). -/
theorem cycle_after_loadRom {data : List Byte} {s t : State} (hfault : s.fault = 0) (hlen : data.length ≤ 3584)
    (h : applyEvent (.loadRom data) s = .next t) (hpc : t.pc.toNat ≤ 0x0FFE) :
    cycle t = exec (decodeWord (s.wordOver 0x200 data t.pc.toNat)) t := by
  obtain rfl : t = s.store 0x200 data := loadRomEvent_fits hlen s ▸ next_inj h
  exact cycle_of_read_store (fun _ => rfl) hfault hpc

/-- Settles O40: each of the three is a store that leaves `FAULT` zero, and a Cycle fetches from memory as it is. -/
theorem storedCodeIsFetchedAtOnce : Obligations.StoredCodeIsFetchedAtOnce :=
  ⟨fun _ _ _ hfault hin h => cycle_after_storeAtIndex hfault hin h,
    fun _ _ _ hfault hin h => cycle_after_storeAtIndex hfault hin h,
    fun _ _ _ hfault hlen h => cycle_after_loadRom hfault hlen h⟩

end Sys2Proof.Machine
end

section

/-! Encoding and decoding of single words (`30_encoding.md` R60 to R68). -/

namespace Sys2Proof

/-! ### The fields of a packed word -/

@[simp] theorem family_packNNN (f : Nat) (nnn : BitVec 12) (hf : f < 16) : family (packNNN f nnn) = f :=
  slice_family_packNNN f nnn hf

@[simp] theorem fieldNNN_packNNN (f : Nat) (nnn : BitVec 12) : fieldNNN (packNNN f nnn) = nnn := by
  simp [fieldNNN, slice_nnn_packNNN]

@[simp] theorem family_packXNN (f : Nat) (x : Reg) (nn : Byte) (hf : f < 16) : family (packXNN f x nn) = f :=
  slice_family_packXNN f x nn hf

@[simp] theorem fieldX_packXNN (f : Nat) (x : Reg) (nn : Byte) : fieldX (packXNN f x nn) = x := by
  simp [fieldX, slice_x_packXNN]

@[simp] theorem fieldNN_packXNN (f : Nat) (x : Reg) (nn : Byte) : fieldNN (packXNN f x nn) = nn := by
  simp [fieldNN, slice_nn_packXNN]

@[simp] theorem family_packXYN (f : Nat) (x y : Reg) (n : Fin 16) (hf : f < 16) : family (packXYN f x y n) = f :=
  slice_family_packXYN f x y n hf

@[simp] theorem fieldX_packXYN (f : Nat) (x y : Reg) (n : Fin 16) : fieldX (packXYN f x y n) = x := by
  simp [fieldX, slice_x_packXYN]

@[simp] theorem fieldY_packXYN (f : Nat) (x y : Reg) (n : Fin 16) : fieldY (packXYN f x y n) = y := by
  simp [fieldY, slice_y_packXYN]

@[simp] theorem fieldN_packXYN (f : Nat) (x y : Reg) (n : Fin 16) : fieldN (packXYN f x y n) = n := by
  simp [fieldN, slice_n_packXYN]

/-! ### The overloaded families select again (R65) -/

section
variable {w : Word}

theorem decodeWord_family8 (hf : family w = 0x8) : decodeWord w = decode8 w := by simp [decodeWord, hf]
theorem decodeWord_familyE (hf : family w = 0xE) : decodeWord w = decodeE w := by simp [decodeWord, hf]
theorem decodeWord_familyF (hf : family w = 0xF) : decodeWord w = decodeF w := by simp [decodeWord, hf]

end

theorem decodeWord_packXYN8 (x y : Reg) (n : Fin 16) : decodeWord (packXYN 0x8 x y n) = decode8 (packXYN 0x8 x y n) :=
  decodeWord_family8 (family_packXYN _ x y n (by decide))

theorem decodeWord_packXNNE (x : Reg) (nn : Byte) : decodeWord (packXNN 0xE x nn) = decodeE (packXNN 0xE x nn) :=
  decodeWord_familyE (family_packXNN _ x nn (by decide))

theorem decodeWord_packXNNF (x : Reg) (nn : Byte) : decodeWord (packXNN 0xF x nn) = decodeF (packXNN 0xF x nn) :=
  decodeWord_familyF (family_packXNN _ x nn (by decide))

/-! ### The fallback row: exactly the unrecognized words (R67) -/

section
variable {w op : Word}

theorem decode0_eq_unknown_iff : decode0 w = .unknown op ↔ w = op ∧ slice w 11 0 ∉ [0x0E0, 0x0EE] := by
  unfold decode0
  split_ifs <;> simp_all

theorem decode8_eq_unknown_iff :
    decode8 w = .unknown op ↔ w = op ∧ slice w 3 0 ∈ [0x8, 0x9, 0xA, 0xB, 0xC, 0xD, 0xF] := by
  have n_lt : slice w 3 0 < 16 := Nat.mod_lt _ (by decide)
  unfold decode8
  split
  case h_10 => grind
  all_goals next hn => simp [hn]

theorem decodeE_eq_unknown_iff : decodeE w = .unknown op ↔ w = op ∧ slice w 7 0 ∉ [0x9E, 0xA1] := by
  unfold decodeE
  split_ifs <;> simp_all

theorem decodeF_eq_unknown_iff : decodeF w = .unknown op ↔
    w = op ∧ slice w 7 0 ∉ [0x07, 0x0A, 0x15, 0x18, 0x1E, 0x29, 0x33, 0x55, 0x65] := by
  unfold decodeF
  split_ifs <;> simp_all

/-- Only four of the sixteen families have such words; `h_k` is the arm of family `k - 1`, and the last is never taken. -/
theorem decodeWord_eq_unknown_iff : decodeWord w = .unknown op ↔ w = op ∧ unrecognized w = true := by
  have family_lt := family_lt w
  have family_def : slice w 15 12 = family w := rfl
  simp only [unrecognized, unrecognized0, unrecognized8, unrecognizedE, unrecognizedF, family_def]
  unfold decodeWord
  split
  case h_1 hf => simp [hf, decode0_eq_unknown_iff]
  case h_9 hf => simp [hf, decode8_eq_unknown_iff]
  case h_15 hf => simp [hf, decodeE_eq_unknown_iff]
  case h_16 hf => simp [hf, decodeF_eq_unknown_iff]
  case h_17 => grind
  all_goals next hf => simp [hf]

end

/-! ### Decoding what was encoded -/

theorem decodeWord_encode {i : Instr} (h : i.wf = true) : decodeWord (encode i) = i := by
  cases i with
  | cls | ret => decide
  | jp | call | ldI | jpV0 => simp [encode, decodeWord]
  | seImm | sneImm | ldImm | addImm | rnd => simp [encode, decodeWord]
  | seReg | sneReg | drw => simp [encode, decodeWord]
  | ldReg | orReg | andReg | xorReg | addReg | subReg | shr | subnReg | shl =>
    simp [encode, decodeWord_packXYN8, decode8, slice_n_packXYN]
  | skp | sknp => simp [encode, decodeWord_packXNNE, decodeE, slice_nn_packXNN]
  | ldVxDT | ldVxK | ldDTVx | ldSTVx | addIVx | ldFVx | ldBVx | storeRegs | loadRegs =>
    simp [encode, decodeWord_packXNNF, decodeF, slice_nn_packXNN]
  | unknown op => exact decodeWord_eq_unknown_iff.mpr ⟨rfl, h⟩

theorem decode_encodeBytes {i : Instr} (h : i.wf = true) : decode (encodeBytes i) = .ok (i, []) := by
  rw [encodeBytes, decode_bytes, decodeWord_encode h]

/-- Settles O12: the word by format and sub-opcode, and the two bytes joined give the word. -/
theorem decodeInvertsEncode : Obligations.DecodeInvertsEncode :=
  fun _ h => ⟨decodeWord_encode h, decode_encodeBytes h⟩

/-! ### Every word -/

theorem decodeWord_wf (w : Word) : (decodeWord w).wf = true := by
  cases hi : decodeWord w
  case unknown op =>
    obtain ⟨rfl, h⟩ := decodeWord_eq_unknown_iff.mp hi
    exact h
  all_goals rfl

/-- Settles O15: only the fallback row could be ill-formed, and it is what the unrecognized words decode to. -/
theorem everyWordDecodesWellFormed : Obligations.EveryWordDecodesWellFormed := fun w =>
  ⟨decodeWord_wf w, by simp [decodeWord_eq_unknown_iff]⟩

/-- Settles O16: twelve closed words, evaluated. -/
theorem sampleWordsDecode : Obligations.SampleWordsDecode := by
  unfold Obligations.SampleWordsDecode
  decide

end Sys2Proof
end

section

/-! The fields of a word put together again, and a word under a mask of `30_encoding.md` R66. -/

namespace Sys2Proof

section
variable {w : Word} {f : Nat}

/-! ### A word is packed from its fields -/

theorem packNNN_of_fields (hf : family w = f) : packNNN f (fieldNNN w) = w := by
  have := w.isLt
  apply BitVec.eq_of_toNat_eq
  simp only [family, slice] at hf
  simp only [packNNN, fieldNNN, slice, BitVec.toNat_ofNat]
  omega

theorem packXNN_of_fields {nn : Byte} (hf : family w = f) (hnn : slice w 7 0 = nn.toNat) :
    packXNN f (fieldX w) nn = w := by
  have := w.isLt
  apply BitVec.eq_of_toNat_eq
  simp only [family, slice] at hf hnn
  simp only [packXNN, fieldX, slice, BitVec.toNat_ofNat, Fin.val_ofNat]
  omega

theorem packXYN_of_fields {n : Fin 16} (hf : family w = f) (hn : slice w 3 0 = n.val) :
    packXYN f (fieldX w) (fieldY w) n = w := by
  have := w.isLt
  apply BitVec.eq_of_toNat_eq
  simp only [family, slice] at hf hn
  simp only [packXYN, fieldX, fieldY, slice, BitVec.toNat_ofNat, Fin.val_ofNat]
  omega

theorem toNat_fieldNN (w : Word) : (fieldNN w).toNat = slice w 7 0 := by
  simp [fieldNN, slice]

theorem val_fieldN (w : Word) : (fieldN w).val = slice w 3 0 := by
  simp [fieldN, slice]

end

/-! ### A word under a mask -/

theorem slice_and (v w : Word) (hi lo : Nat) : slice (v &&& w) hi lo = slice v hi lo &&& slice w hi lo := by
  simp only [slice, BitVec.toNat_and, ← Nat.shiftRight_eq_div_pow, Nat.shiftRight_and_distrib, Nat.and_mod_two_pow]

theorem slice_and_of_full {m : Word} {hi lo : Nat} (w : Word) (hm : slice m hi lo = 2 ^ (hi + 1 - lo) - 1) :
    slice (w &&& m) hi lo = slice w hi lo := by
  rw [slice_and, hm, Nat.and_two_pow_sub_one_eq_mod, slice, Nat.mod_mod]

theorem slice_and_of_empty {m : Word} {hi lo : Nat} (w : Word) (hm : slice m hi lo = 0) :
    slice (w &&& m) hi lo = 0 := by
  rw [slice_and, hm, Nat.and_zero]

theorem and_F000 (w : Word) : w &&& 0xF000 = packNNN (family w) 0 := by
  have hf : family (w &&& 0xF000) = family w := slice_and_of_full w (by decide)
  have hnnn : fieldNNN (w &&& 0xF000) = 0 := congrArg (BitVec.ofNat 12) (slice_and_of_empty w (by decide))
  rw [← packNNN_of_fields hf, hnnn]

theorem and_F0FF (w : Word) : w &&& 0xF0FF = packXNN (family w) 0 (fieldNN w) := by
  have hf : family (w &&& 0xF0FF) = family w := slice_and_of_full w (by decide)
  have hx : fieldX (w &&& 0xF0FF) = 0 := congrArg (Fin.ofNat 16) (slice_and_of_empty w (by decide))
  have hnn : slice (w &&& 0xF0FF) 7 0 = (fieldNN w).toNat :=
    (slice_and_of_full w (by decide)).trans (toNat_fieldNN w).symm
  rw [← packXNN_of_fields hf hnn, hx]

theorem and_F00F (w : Word) : w &&& 0xF00F = packXYN (family w) 0 0 (fieldN w) := by
  have hf : family (w &&& 0xF00F) = family w := slice_and_of_full w (by decide)
  have hx : fieldX (w &&& 0xF00F) = 0 := congrArg (Fin.ofNat 16) (slice_and_of_empty w (by decide))
  have hy : fieldY (w &&& 0xF00F) = 0 := congrArg (Fin.ofNat 16) (slice_and_of_empty w (by decide))
  have hn : slice (w &&& 0xF00F) 3 0 = (fieldN w).val := (slice_and_of_full w (by decide)).trans (val_fieldN w).symm
  rw [← packXYN_of_fields hf hn, hx, hy]

theorem and_FFF0 (w : Word) : w &&& 0xFFF0 = packXYN (family w) (fieldX w) (fieldY w) 0 := by
  have hf : family (w &&& 0xFFF0) = family w := slice_and_of_full w (by decide)
  have hx : fieldX (w &&& 0xFFF0) = fieldX w := congrArg (Fin.ofNat 16) (slice_and_of_full w (by decide))
  have hy : fieldY (w &&& 0xFFF0) = fieldY w := congrArg (Fin.ofNat 16) (slice_and_of_full w (by decide))
  rw [← packXYN_of_fields (n := 0) hf (slice_and_of_empty w (by decide)), hx, hy]

/-! ### Encoding what was decoded -/

section
variable {w : Word}

theorem encode_decode0 (hf : family w = 0x0) : encode (decode0 w) = w := by
  have hw : packNNN 0x0 (fieldNNN w) = w := packNNN_of_fields hf
  unfold decode0
  split_ifs with h1 h2
  · rw [← hw, fieldNNN, h1]; rfl
  · rw [← hw, fieldNNN, h2]; rfl
  · rfl

theorem encode_decode8 (hf : family w = 0x8) : encode (decode8 w) = w := by
  unfold decode8
  split
  case h_10 => rfl
  all_goals next hn => exact packXYN_of_fields hf hn

theorem encode_decodeE (hf : family w = 0xE) : encode (decodeE w) = w := by
  unfold decodeE
  split_ifs
  case neg => rfl
  all_goals next hnn => exact packXNN_of_fields hf hnn

theorem encode_decodeF (hf : family w = 0xF) : encode (decodeF w) = w := by
  unfold decodeF
  split_ifs
  case neg => rfl
  all_goals next hnn => exact packXNN_of_fields hf hnn

end

/-- The formats of the sixteen families (`h_k` is the arm of family `k - 1`); 5 and 9 encode with the low nibble 0 (R68). -/
theorem encode_decodeWord (w : Word) : encode (decodeWord w) = canonicalWord w := by
  have family_lt := family_lt w
  unfold decodeWord canonicalWord
  split
  case h_1 hf => simpa [hf] using encode_decode0 hf
  case h_9 hf => simpa [hf] using encode_decode8 hf
  case h_15 hf => simpa [hf] using encode_decodeE hf
  case h_16 hf => simpa [hf] using encode_decodeF hf
  case h_6 hf | h_10 hf => rw [if_pos (by simp [hf]), and_FFF0, hf]; rfl
  case h_2 hf | h_3 hf | h_11 hf | h_12 hf => simpa [hf, encode] using packNNN_of_fields hf
  case h_14 hf => simpa [hf, encode] using packXYN_of_fields hf (val_fieldN w).symm
  case h_17 => grind
  all_goals next hf => simpa [hf, encode] using packXNN_of_fields hf (toNat_fieldNN w).symm

/-- Settles O13, format by format: the fields of a word, packed again, are the word. -/
theorem encodeInvertsDecodeUpToDontCares : Obligations.EncodeInvertsDecodeUpToDontCares := encode_decodeWord

end Sys2Proof
end

section

/-! The opcode map (`30_encoding.md` R66): at most one row can select a word, and it is the row of what the word
decodes to. -/

namespace Sys2Proof

/-! ### The one row that can select a word -/

/-- The mask of every row of family `f` in R66: what selects inside the family (R65). -/
def selectMask (f : Nat) : Word :=
  match f with
  | 0x0 => 0xFFFF
  | 0x8 => 0xF00F
  | 0xE | 0xF => 0xF0FF
  | _ => 0xF000

/-- The row that selects `w`, where the map has it. -/
def rowKey (w : Word) : OpcodeRow := ⟨w &&& selectMask (family w), selectMask (family w)⟩

theorem mask_of_mem_opcodeMap : ∀ row ∈ opcodeMap, row.mask = selectMask (family row.pat) := by decide

theorem family_and_selectMask (w : Word) (f : Nat) : family (w &&& selectMask f) = family w := by
  refine slice_and_of_full w ?_
  unfold selectMask
  split <;> rfl

theorem selects_iff_eq_rowKey {w : Word} {row : OpcodeRow} (hrow : row ∈ opcodeMap) :
    row.selects w = true ↔ row = rowKey w := by
  constructor
  · intro hsel
    have hpat : w &&& row.mask = row.pat := by simpa [OpcodeRow.selects] using hsel
    have hmask := mask_of_mem_opcodeMap row hrow
    have hfamily : family row.pat = family w := by rw [← hpat, hmask, family_and_selectMask]
    rw [hfamily] at hmask
    rw [rowKey, ← hmask, hpat]
  · rintro rfl
    simp [OpcodeRow.selects, rowKey]

theorem opcodeRow_mem {i : Instr} {row : OpcodeRow} (h : opcodeRow i = some row) : row ∈ opcodeMap := by
  cases i <;> cases h <;> decide

theorem opcodeRow_eq_none_iff {i : Instr} : opcodeRow i = none ↔ ∃ op, i = .unknown op := by
  cases i <;> simp [opcodeRow]

/-! ### A word of the four classes (R67) has no row in the map -/

/-- The bits that select inside a family stay under its mask. -/
theorem slice_and_selectMask {w : Word} {f hi lo : Nat} (hf : family w = f)
    (hm : slice (selectMask f) hi lo = 2 ^ (hi + 1 - lo) - 1) :
    slice (w &&& selectMask (family w)) hi lo = slice w hi lo :=
  slice_and_of_full w (hf ▸ hm)

theorem unrecognized_and_selectMask (w : Word) : unrecognized (w &&& selectMask (family w)) = unrecognized w := by
  have hfamily : slice (w &&& selectMask (family w)) 15 12 = slice w 15 12 := family_and_selectMask w _
  have h0 (h : slice w 15 12 = 0x0) := slice_and_selectMask (hi := 11) (lo := 0) h (by decide)
  have h8 (h : slice w 15 12 = 0x8) := slice_and_selectMask (hi := 3) (lo := 0) h (by decide)
  have hE (h : slice w 15 12 = 0xE) := slice_and_selectMask (hi := 7) (lo := 0) h (by decide)
  have hF (h : slice w 15 12 = 0xF) := slice_and_selectMask (hi := 7) (lo := 0) h (by decide)
  simp only [unrecognized, unrecognized0, unrecognized8, unrecognizedE, unrecognizedF, hfamily]
  grind

theorem recognized_of_mem_opcodeMap : ∀ row ∈ opcodeMap, unrecognized row.pat = false := by decide

theorem rowKey_notMem_of_unrecognized {w : Word} (h : unrecognized w = true) : rowKey w ∉ opcodeMap := fun hmem => by
  have hpat := recognized_of_mem_opcodeMap _ hmem
  rw [rowKey, unrecognized_and_selectMask, h] at hpat
  cases hpat

/-! ### The row of what a word decodes to -/

section
variable {w : Word} {row : OpcodeRow}

theorem eq_rowKey_of_decode0 (hf : family w = 0x0) (h : opcodeRow (decode0 w) = some row) : row = rowKey w := by
  have hw : packNNN 0x0 (fieldNNN w) = w := packNNN_of_fields hf
  simp only [rowKey, hf, selectMask]
  unfold decode0 at h
  split_ifs at h with h1 h2
  · rw [← hw, fieldNNN, h1]; cases h; rfl
  · rw [← hw, fieldNNN, h2]; cases h; rfl
  · cases h

theorem eq_rowKey_of_decode8 (hf : family w = 0x8) (h : opcodeRow (decode8 w) = some row) : row = rowKey w := by
  simp only [rowKey, hf, selectMask, and_F00F, fieldN]
  unfold decode8 at h
  split at h
  case h_10 => cases h
  all_goals next hn => rw [hn]; cases h; rfl

theorem eq_rowKey_of_decodeE (hf : family w = 0xE) (h : opcodeRow (decodeE w) = some row) : row = rowKey w := by
  simp only [rowKey, hf, selectMask, and_F0FF, fieldNN]
  unfold decodeE at h
  split_ifs at h
  case neg => cases h
  all_goals next hnn => rw [hnn]; cases h; rfl

theorem eq_rowKey_of_decodeF (hf : family w = 0xF) (h : opcodeRow (decodeF w) = some row) : row = rowKey w := by
  simp only [rowKey, hf, selectMask, and_F0FF, fieldNN]
  unfold decodeF at h
  split_ifs at h
  case neg => cases h
  all_goals next hnn => rw [hnn]; cases h; rfl

theorem eq_rowKey_of_decodeWord (h : opcodeRow (decodeWord w) = some row) : row = rowKey w := by
  unfold decodeWord at h
  split at h
  case h_1 hf => exact eq_rowKey_of_decode0 hf h
  case h_9 hf => exact eq_rowKey_of_decode8 hf h
  case h_15 hf => exact eq_rowKey_of_decodeE hf h
  case h_16 hf => exact eq_rowKey_of_decodeF hf h
  case h_17 => cases h
  all_goals next hf => simp only [rowKey, hf, selectMask, and_F000]; cases h; rfl

end

/-! ### The decoder and the map agree -/

theorem opcodeRow_decodeWord_eq_none_iff {w : Word} : opcodeRow (decodeWord w) = none ↔ decodeWord w = .unknown w := by
  rw [opcodeRow_eq_none_iff]
  constructor
  · rintro ⟨op, hop⟩
    obtain ⟨rfl, -⟩ := decodeWord_eq_unknown_iff.mp hop
    exact hop
  · exact fun hw => ⟨w, hw⟩

theorem selects_iff_opcodeRow_decodeWord (w : Word) {row : OpcodeRow} (hrow : row ∈ opcodeMap) :
    row.selects w = true ↔ opcodeRow (decodeWord w) = some row := by
  rw [selects_iff_eq_rowKey hrow]
  constructor
  · rintro rfl
    cases hdec : opcodeRow (decodeWord w) with
    | none =>
      obtain ⟨-, hw⟩ := decodeWord_eq_unknown_iff.mp (opcodeRow_decodeWord_eq_none_iff.mp hdec)
      exact absurd hrow (rowKey_notMem_of_unrecognized hw)
    | some row' => rw [eq_rowKey_of_decodeWord hdec]
  · exact eq_rowKey_of_decodeWord

theorem selects_none_iff_unknown (w : Word) :
    (∀ row ∈ opcodeMap, row.selects w = false) ↔ decodeWord w = .unknown w := by
  rw [← opcodeRow_decodeWord_eq_none_iff]
  constructor
  · intro hnone
    rw [Option.eq_none_iff_forall_ne_some]
    intro row hdec
    have hrow := opcodeRow_mem hdec
    have hsel := (selects_iff_opcodeRow_decodeWord w hrow).mpr hdec
    rw [hnone row hrow] at hsel
    cases hsel
  · intro hdec row hrow
    rw [← Bool.not_eq_true, selects_iff_opcodeRow_decodeWord w hrow, hdec]
    exact (Option.some_ne_none row).symm

/-- Settles O14: by way of the one row whose mask and match could select the word. -/
theorem decoderAgreesWithOpcodeMap : Obligations.DecoderAgreesWithOpcodeMap :=
  fun w => ⟨fun _ hrow => selects_iff_opcodeRow_decodeWord w hrow, selects_none_iff_unknown w⟩

end Sys2Proof
end

section

/-! Words that a mask of `30_encoding.md` R66 selects: one whole family, or one word alone. -/

namespace Sys2Proof.Machine

/-- Under the mask 0xF000 a pattern selects its whole family. -/
theorem decodesAs_of_family {pat : Word} {g : Word → Instr} (h : ∀ w, family w = family pat → decodeWord w = g w) :
    DecodesAs pat 0xF000 g := by
  rintro w rfl
  exact h w (slice_and_of_full w (by decide)).symm

/-- Under the mask 0xFFFF a pattern selects itself alone. -/
theorem decodesAs_of_word {pat : Word} {i : Instr} (h : decodeWord pat = i) : DecodesAs pat 0xFFFF fun _ => i := by
  intro w hw
  obtain rfl : w = pat := (BitVec.and_allOnes (x := w)).symm.trans hw
  exact h

end Sys2Proof.Machine
end

section

/-! The step of a core that runs (`40_flow.md` R80): its next event is a Cycle, and the Cycle executes the word at `PC`. -/

namespace Sys2Proof.Machine

/-! ### The event taken next -/

theorem State.takeEvent_cons {s : State} {e : Event} {rest : List Event} (h : s.schedule = e :: rest) :
    s.takeEvent = (e, { s with schedule := rest }) := by
  simp [State.takeEvent, h]

theorem State.takeEvent_cycles {s : State} (h : s.schedule = []) (ha : s.afterwards = .cycles) :
    s.takeEvent = (.cycle, s) := by
  simp [State.takeEvent, h, ha]

/-! ### The instruction executed -/

/-- The state with the event used up fetches what the state before it would. -/
theorem step_runs {s t : State} (hfault : s.fault = 0) (hpc : s.pc.toNat ≤ 0x0FFE) (h : s.takeEvent = (.cycle, t)) :
    step s = exec (decodeWord s.fetchWord) t := by
  obtain ⟨l, a, ht⟩ := s.takeEvent_snd
  obtain rfl : t = { s with schedule := l, afterwards := a } := by rw [← ht, h]
  exact (step_cycle h).trans (cycle_runs hfault hpc)

/-- The word two bytes make decodes to the instruction they do. -/
theorem decodeWord_wordOfBytes {hi lo : Byte} {i : Instr} (h : decode [hi, lo] = .ok (i, [])) :
    decodeWord (wordOfBytes hi lo) = i := by
  simpa [decode] using h

/-- Settles O7: the word fetched is that of the two bytes at `PC`, and each schedule named has a Cycle to take. -/
theorem stepRunsTheDecodedInstruction : Obligations.StepRunsTheDecodedInstruction := by
  intro s i hfault hpc hdec _
  have runs (t : State) (h : s.takeEvent = (.cycle, t)) : step s = exec i t := by
    rw [step_runs hfault hpc h, s.fetchWord_eq, decodeWord_wordOfBytes hdec]
  exact ⟨runs, fun hs ha => runs s (State.takeEvent_cycles hs ha), fun _ hs => runs _ (State.takeEvent_cons hs)⟩

end Sys2Proof.Machine
end

section

/-! Calls and returns with room on the stack, and at its two ends (`40_flow.md` R82, R84, `60_exceptions.md` R167, R168). -/

namespace Sys2Proof.Machine

/-! ### What a call answers -/

theorem execCall_pushes (nnn : BitVec 12) {s : State} (h : s.sp.toNat < 16) :
    execCall nnn s = .next { s with stack := s.stack.set s.sp.toNat s.pc h, sp := s.sp + 1, pc := zextNNN nnn } := by
  have hfull : s.sp ≠ 16 := by bv_omega
  rw [execCall, if_neg hfull, s.push_eq s.pc h]
  rfl

theorem execCall_overflows (nnn : BitVec 12) {s : State} (h : s.sp.toNat = 16) :
    execCall nnn s = .next { s with fault := Cause.code .stackOverflow } :=
  if_pos (BitVec.eq_of_toNat_eq h)

/-- A call that finds room adds one to `SP` without a wrap. -/
theorem State.sp_add_one_toNat {s : State} (h : s.sp.toNat < 16) : (s.sp + 1).toNat = s.sp.toNat + 1 := by
  bv_omega

/-! ### What a return answers -/

theorem execRet_pops {s : State} {k : Fin 16} (h : s.sp.toNat = k.val + 1) :
    execRet s = .next { s with sp := s.sp - 1, pc := s.stack[k.val] + 2 } := by
  have hempty : s.sp ≠ 0 := by bv_omega
  rw [execRet, if_neg hempty, s.pop_eq hempty (by omega)]
  simp [h, State.jumpTo]

theorem execRet_underflows {s : State} (h : s.sp.toNat = 0) :
    execRet s = .next { s with fault := Cause.code .stackUnderflow } :=
  if_pos (BitVec.eq_of_toNat_eq h)

/-! ### The statements -/

/-- Settles O21: the return pops the entry the call pushed, which holds the call's own address. -/
theorem returnResumesAfterTheCall : Obligations.ReturnResumesAfterTheCall := by
  intro nnn s t u hlt hcall husp hustack
  obtain rfl := next_inj ((execCall_pushes nnn hlt).symm.trans hcall)
  have hsp : u.sp.toNat = s.sp.toNat + 1 := by rw [husp, s.sp_add_one_toNat hlt]
  refine ⟨_, execRet_pops (k := ⟨s.sp.toNat, hlt⟩) hsp, ?_, ?_⟩
  · simp [hustack]
  · simp [husp]

/-- Settles O18: a call with room pushes, and a call with sixteen entries taken writes `FAULT` alone. -/
theorem callPushesItsOwnAddress : Obligations.CallPushesItsOwnAddress := by
  refine ⟨decodesAs_of_family fun w hf => by rw [decodeWord, hf]; rfl, fun nnn s => ⟨fun hlt => ?_, fun hfull => ?_⟩⟩
  · refine ⟨_, execCall_pushes nnn hlt, fun k => ?_, s.sp_add_one_toNat hlt, zextNNN_toNat nnn,
      frame_pc (frame_sp_stack s (s.sp + 1) _) _⟩
    simp [Vector.getElem_set, eq_comm]
  · exact ⟨_, execCall_overflows nnn hfull, rfl, frame_fault s _⟩

/-- Settles O19: a return with an entry to pop leaves the stack as it is, and one without writes `FAULT` alone. -/
theorem returnPopsAndAddsTwo : Obligations.ReturnPopsAndAddsTwo := by
  refine ⟨decodesAs_of_word (by decide), fun s => ⟨fun k hk => ?_, fun hempty => ?_⟩⟩
  · have hsp : (s.sp - 1).toNat = k.val := by bv_omega
    exact ⟨_, execRet_pops hk, hsp, BitVec.toNat_add _ _, frame_pc (frame_sp s (s.sp - 1)) _⟩
  · exact ⟨_, execRet_underflows hempty, rfl, frame_fault s _⟩

end Sys2Proof.Machine
end

section

/-! Jumps and skips (`40_flow.md` R83, R85 to R89): they write `PC` and nothing else. -/

namespace Sys2Proof.Machine

theorem frame_jumpTo (s : State) (a : Word) : Frame [.pc] s (s.jumpTo a) := frame_pc (frame_refl [] s) a

theorem frame_skipIf (s : State) (c : Bool) : Frame [.pc] s (s.skipIf c) := frame_pc (frame_refl [] s) _

/-! ### Jumps -/

/-- A jump to its own address changes nothing. -/
theorem State.jumpTo_of_eq_pc {s : State} {nnn : BitVec 12} (h : nnn.toNat = s.pc.toNat) : s.jumpTo (zextNNN nnn) = s := by
  have hpc : zextNNN nnn = s.pc := BitVec.eq_of_toNat_eq ((zextNNN_toNat nnn).trans h)
  rw [hpc]
  rfl

/-- Settles O17: the target is exact, and of the targets 0xFFF alone has no second byte to fetch. -/
theorem jumpSetsPcExactly : Obligations.JumpSetsPcExactly := by
  refine ⟨decodesAs_of_family fun w hf => by rw [decodeWord, hf]; rfl, fun nnn s => ⟨s.jumpTo (zextNNN nnn), rfl,
    zextNNN_toNat nnn, frame_jumpTo s _, State.jumpTo_of_eq_pc, ?_⟩⟩
  rintro rfl hfault
  have hpc : 0x0FFE < (zextNNN 0xFFF).toNat := by decide
  exact ⟨_, cycle_fetchOob (s := s.jumpTo (zextNNN 0xFFF)) hfault hpc, rfl⟩

/-- Settles O22: 0xFFF + 0xFF is below 65536, so the sum does not wrap. -/
theorem jumpWithOffsetAddsV0 : Obligations.JumpWithOffsetAddsV0 :=
  ⟨decodesAs_of_family fun w hf => by rw [decodeWord, hf]; rfl,
    fun nnn s => ⟨_, rfl, jpV0_toNat nnn (s.reg 0), frame_jumpTo s _⟩⟩

/-! ### Skips -/

/-- An instruction that ends its cycle by R81 kind (b), `p` and `q` being what makes its condition true and false. -/
theorem skips_of_exec_eq {i : Instr} {s : State} {c : Bool} {p q : Prop} (h : exec i s = .next (s.skipIf c))
    (hp : p → c = true) (hq : q → c = false) :
    ∃ t, exec i s = .next t ∧ (p → t.pc = s.pc + 4) ∧ (q → t.pc = s.pc + 2) ∧ Frame [.pc] s t :=
  ⟨_, h, fun h => by simp [hp h], fun h => by simp [hq h], frame_skipIf s c⟩

/-- Settles O23: the condition of `3xnn` is the equality of `V[x]` and `nn`, that of `4xnn` its negation. -/
theorem skipsOnImmediate : Obligations.SkipsOnImmediate := by
  refine ⟨decodesAs_of_family fun w hf => by rw [decodeWord, hf]; rfl,
    decodesAs_of_family fun w hf => by rw [decodeWord, hf]; rfl, fun x nn s => ⟨?_, ?_⟩⟩
  · exact skips_of_exec_eq rfl beq_iff_eq.mpr beq_false_of_ne
  · exact skips_of_exec_eq rfl bne_iff_ne.mpr bne_eq_false_iff_eq.mpr

/-- Settles O24: the condition of `5xyN` is the equality of `V[x]` and `V[y]`, that of `9xyN` its negation. -/
theorem skipsOnRegisters : Obligations.SkipsOnRegisters := by
  refine ⟨decodesAs_of_family fun w hf => by rw [decodeWord, hf]; rfl,
    decodesAs_of_family fun w hf => by rw [decodeWord, hf]; rfl, fun x y s => ⟨?_, ?_⟩⟩
  · exact skips_of_exec_eq rfl beq_iff_eq.mpr beq_false_of_ne
  · exact skips_of_exec_eq rfl bne_iff_ne.mpr bne_eq_false_iff_eq.mpr

end Sys2Proof.Machine
end

section

/-! Words of family 8, whose sub-opcode is `n` (`30_encoding.md` R65, R66). -/

namespace Sys2Proof.Machine

/-- Under the mask 0xF00F a pattern of family 8 selects every word with its sub-opcode. -/
theorem decodesAs_of_family8 {pat : Word} {g : Word → Instr} (hpat : family pat = 0x8)
    (h : ∀ w, slice w 3 0 = slice pat 3 0 → decode8 w = g w) : DecodesAs pat 0xF00F g := by
  rintro w rfl
  have hf : family w = 0x8 := (slice_and_of_full w (by decide)).symm.trans hpat
  rw [decodeWord_family8 hf]
  exact h w (slice_and_of_full w (by decide)).symm

end Sys2Proof.Machine
end

section

/-! The flags and the results of `41_alu.md` as numbers (R102, R107 to R111, R113). -/

namespace Sys2Proof.Machine

/-! ### Flags -/

theorem flagByte_decide_toNat (p : Prop) [Decidable p] : (flagByte (decide p)).toNat = if p then 1 else 0 := by
  by_cases h : p <;> simp [flagByte, h]

theorem flagByte_toNat (c : Bool) : (flagByte c).toNat = c.toNat := by
  cases c <;> rfl

theorem carryOut_toNat (a b : Byte) : (carryOut a b).toNat = if a.toNat + b.toNat > 255 then 1 else 0 :=
  flagByte_decide_toNat _

theorem notBorrow_toNat (a b : Byte) : (notBorrow a b).toNat = if a.toNat ≥ b.toNat then 1 else 0 :=
  flagByte_decide_toNat _

theorem shiftedOutLow_toNat (a : Byte) : (shiftedOutLow a).toNat = a.toNat % 2 := by
  rw [shiftedOutLow, flagByte_toNat, BitVec.getLsbD, Nat.toNat_testBit]
  simp

theorem shiftedOutHigh_toNat (a : Byte) : (shiftedOutHigh a).toNat = a.toNat / 128 := by
  have := a.isLt
  rw [shiftedOutHigh, flagByte_toNat, BitVec.getLsbD, Nat.toNat_testBit]
  omega

/-! ### Results -/

theorem byte_sub_toNat (a b : Byte) : (a - b).toNat = (a.toNat + 256 - b.toNat) % 256 := by
  have := b.isLt
  rw [BitVec.toNat_sub]
  omega

theorem byte_shiftRight_one_toNat (a : Byte) : (a >>> 1).toNat = a.toNat / 2 :=
  Nat.shiftRight_one _

theorem byte_shiftLeft_one_toNat (a : Byte) : (a <<< 1).toNat = 2 * a.toNat % 256 := by
  rw [BitVec.toNat_shiftLeft, Nat.shiftLeft_eq]
  omega

end Sys2Proof.Machine
end

section

/-! Register load, ALU, shifter and random (`41_alu.md`): what each form leaves in its registers, and what it does not
touch. -/

namespace Sys2Proof.Machine

/-! ### What the three ways to end an instruction of this chapter write (R100) -/

theorem Frame.mono {l l' : List Part} {s t : State} (h : Frame l s t) (hl : l ⊆ l') : Frame l' s t :=
  fun p hp => h p fun hmem => hp (hl hmem)

/-- The instruction ends at `PC + 2` and of the state changes at most the registers of `l` besides. -/
def WritesRegs (l : List Reg) (s t : State) : Prop := t.pc = s.pc + 2 ∧ RegsSameBut l s t ∧ Frame [.v, .pc] s t

theorem writesRegs_advance {l : List Reg} {s : State} {v : Vector Byte 16} (h : RegsSameBut l s { s with v := v }) :
    WritesRegs l s ({ s with v := v } : State).advance :=
  ⟨rfl, h, (frame_pc (frame_v s v) _).mono (by decide)⟩

section
variable {x : Reg} {a b : Byte} {s t : State}

theorem regsSameBut_setReg {l : List Reg} (h : RegsSameBut l s t) (hx : x ∈ l) : RegsSameBut l s (t.setReg x b) := by
  intro r hr
  have hne : r ≠ x := fun e => hr (e ▸ hx)
  rw [t.reg_setReg_ne b hne, h r hr]

theorem setReg_setReg_writes {l : List Reg} {y : Reg} (hx : x ∈ l) (hy : y ∈ l) :
    WritesRegs l s ((s.setReg x a).setReg y b).advance :=
  writesRegs_advance (regsSameBut_setReg (regsSameBut_setReg (fun _ _ => rfl) hx) hy)

theorem resultOnly_writes {i : Instr} (h : exec i s = resultOnly x b s) :
    ∃ t, exec i s = .next t ∧ t.reg x = b ∧ WritesRegs [x] s t :=
  ⟨_, h, s.reg_setReg_self x b, writesRegs_advance (regsSameBut_setReg (fun _ _ => rfl) (by simp))⟩

/-- With `x = F` the flag is what remains. -/
theorem resultThenFlag_writes (h : resultThenFlag x a b s = .next t) :
    (x ≠ VF → t.reg x = a) ∧ t.reg VF = b ∧ WritesRegs [x, VF] s t := by
  obtain rfl := next_inj h
  exact ⟨fun hx => by simp [hx], by simp, setReg_setReg_writes (by simp) (by simp)⟩

/-- With `x = F` the result is what remains (decision D11). -/
theorem flagThenResult_writes (h : flagThenResult x b a s = .next t) :
    t.reg x = a ∧ (x ≠ VF → t.reg VF = b) ∧ WritesRegs [x, VF] s t := by
  obtain rfl := next_inj h
  exact ⟨by simp, fun hx => by simp [hx.symm], setReg_setReg_writes (by simp) (by simp)⟩

end

/-! ### The five flag writers -/

section
variable {x y : Reg} {s t : State}

/-- `8xy4` (R107). -/
theorem exec_addReg_writes (h : exec (.addReg x y) s = .next t) :
    (x ≠ VF → (t.reg x).toNat = ((s.reg x).toNat + (s.reg y).toNat) % 256) ∧
    (t.reg VF).toNat = (if (s.reg x).toNat + (s.reg y).toNat > 255 then 1 else 0) ∧ WritesRegs [x, VF] s t := by
  obtain ⟨hresult, hflag, hw⟩ := resultThenFlag_writes h
  exact ⟨fun hx => by rw [hresult hx, BitVec.toNat_add], by rw [hflag, carryOut_toNat], hw⟩

/-- `8xy5` (R108). -/
theorem exec_subReg_writes (h : exec (.subReg x y) s = .next t) :
    (x ≠ VF → (t.reg x).toNat = ((s.reg x).toNat + 256 - (s.reg y).toNat) % 256) ∧
    (t.reg VF).toNat = (if (s.reg x).toNat ≥ (s.reg y).toNat then 1 else 0) ∧ WritesRegs [x, VF] s t := by
  obtain ⟨hresult, hflag, hw⟩ := resultThenFlag_writes h
  exact ⟨fun hx => by rw [hresult hx, byte_sub_toNat], by rw [hflag, notBorrow_toNat], hw⟩

/-- `8xy7` (R110): `8xy5` with the operands exchanged. -/
theorem exec_subnReg_writes (h : exec (.subnReg x y) s = .next t) :
    (x ≠ VF → (t.reg x).toNat = ((s.reg y).toNat + 256 - (s.reg x).toNat) % 256) ∧
    (t.reg VF).toNat = (if (s.reg y).toNat ≥ (s.reg x).toNat then 1 else 0) ∧ WritesRegs [x, VF] s t := by
  obtain ⟨hresult, hflag, hw⟩ := resultThenFlag_writes h
  exact ⟨fun hx => by rw [hresult hx, byte_sub_toNat], by rw [hflag, notBorrow_toNat], hw⟩

/-- `8xy6` (R109). -/
theorem exec_shr_writes (h : exec (.shr x y) s = .next t) :
    (t.reg x).toNat = (s.reg x).toNat / 2 ∧ (x ≠ VF → (t.reg VF).toNat = (s.reg x).toNat % 2) ∧
    WritesRegs [x, VF] s t := by
  obtain ⟨hresult, hflag, hw⟩ := flagThenResult_writes h
  exact ⟨by rw [hresult, byte_shiftRight_one_toNat], fun hx => by rw [hflag hx, shiftedOutLow_toNat], hw⟩

/-- `8xyE` (R111). -/
theorem exec_shl_writes (h : exec (.shl x y) s = .next t) :
    (t.reg x).toNat = 2 * (s.reg x).toNat % 256 ∧ (x ≠ VF → (t.reg VF).toNat = (s.reg x).toNat / 128) ∧
    WritesRegs [x, VF] s t := by
  obtain ⟨hresult, hflag, hw⟩ := flagThenResult_writes h
  exact ⟨by rw [hresult, byte_shiftLeft_one_toNat], fun hx => by rw [hflag hx, shiftedOutHigh_toNat], hw⟩

end

/-- Settles O33: the general rule of each operation, at `x = F`, at `y = F` and at both; a sum of equal operands carries
their top bit, and a difference of equal operands does not borrow. -/
theorem vfAsOperandOfFlagWriters : Obligations.VfAsOperandOfFlagWriters := by
  rintro x y s _ hx - rfl
  have hf := (s.reg VF).isLt
  refine ⟨fun t h => ?_, fun t h => ?_, fun t h => ?_, fun t h => ?_, fun t h => ?_, fun t h => ?_, fun t h => ?_,
    fun t h => ?_, fun t h => ?_, fun t h => ?_, fun t h => ?_, fun z t h => ?_, fun z t h => ?_⟩
  · exact (exec_addReg_writes h).2.1
  · obtain ⟨hresult, hflag, -⟩ := exec_addReg_writes h
    exact ⟨hresult hx, hflag⟩
  · obtain ⟨-, hflag, -⟩ := exec_addReg_writes h
    rw [hflag]
    split <;> omega
  · exact (exec_subReg_writes h).2.1
  · obtain ⟨hresult, hflag, -⟩ := exec_subReg_writes h
    exact ⟨hresult hx, hflag⟩
  · obtain ⟨-, hflag, -⟩ := exec_subReg_writes h
    rw [hflag, if_pos le_rfl]
  · exact (exec_subnReg_writes h).2.1
  · obtain ⟨hresult, hflag, -⟩ := exec_subnReg_writes h
    exact ⟨hresult hx, hflag⟩
  · obtain ⟨-, hflag, -⟩ := exec_subnReg_writes h
    rw [hflag, if_pos le_rfl]
  · obtain ⟨hresult, hflag, -⟩ := exec_shr_writes h
    exact ⟨hresult, hflag hx⟩
  · obtain ⟨hresult, hflag, -⟩ := exec_shl_writes h
    exact ⟨hresult, hflag hx⟩
  · exact (exec_shr_writes h).1
  · exact (exec_shl_writes h).1

/-! ### The statements about each operation -/

/-- Settles O26: each writes its one register. -/
theorem loadsOfRegisters : Obligations.LoadsOfRegisters :=
  ⟨decodesAs_of_family fun w hf => by rw [decodeWord, hf]; rfl,
    decodesAs_of_family8 rfl fun w hn => by rw [decode8, hn]; rfl,
    fun _ _ _ _ => ⟨resultOnly_writes rfl, resultOnly_writes rfl⟩⟩

/-- Settles O27: the sum of two bytes is modulo 256, and `V[x]` is the one register written. -/
theorem addImmediateWrapsWithoutFlag : Obligations.AddImmediateWrapsWithoutFlag := by
  refine ⟨decodesAs_of_family fun w hf => by rw [decodeWord, hf]; rfl, fun x nn s => ?_⟩
  obtain ⟨t, ht, hx, hw⟩ := resultOnly_writes (i := .addImm x nn) (s := s) rfl
  exact ⟨t, ht, by rw [hx, BitVec.toNat_add], hw⟩

/-- Settles O28: each writes its one register, and the operation on bytes is bit by bit. -/
theorem logicOperationsLeaveVF : Obligations.LogicOperationsLeaveVF := by
  refine ⟨decodesAs_of_family8 rfl fun w hn => by rw [decode8, hn]; rfl,
    decodesAs_of_family8 rfl fun w hn => by rw [decode8, hn]; rfl,
    decodesAs_of_family8 rfl fun w hn => by rw [decode8, hn]; rfl, fun x y s => ⟨?_, ?_, ?_⟩⟩
  · obtain ⟨t, ht, hx, hw⟩ := resultOnly_writes (i := .orReg x y) (s := s) rfl
    exact ⟨t, ht, fun k => by rw [hx, BitVec.getLsbD_or], hw⟩
  · obtain ⟨t, ht, hx, hw⟩ := resultOnly_writes (i := .andReg x y) (s := s) rfl
    exact ⟨t, ht, fun k => by rw [hx, BitVec.getLsbD_and], hw⟩
  · obtain ⟨t, ht, hx, hw⟩ := resultOnly_writes (i := .xorReg x y) (s := s) rfl
    exact ⟨t, ht, fun k => by rw [hx, BitVec.getLsbD_xor], hw⟩

/-- Settles O29: the rule of `8xy4`, which never stops. -/
theorem addSetsCarry : Obligations.AddSetsCarry :=
  ⟨decodesAs_of_family8 rfl fun w hn => by rw [decode8, hn]; rfl, fun _ _ _ => ⟨_, rfl, exec_addReg_writes rfl⟩⟩

/-- Settles O30: 256 added before the subtraction does not change the difference modulo 256. -/
theorem subtractionsSetNotBorrow : Obligations.SubtractionsSetNotBorrow := by
  refine ⟨decodesAs_of_family8 rfl fun w hn => by rw [decode8, hn]; rfl,
    decodesAs_of_family8 rfl fun w hn => by rw [decode8, hn]; rfl, fun x y s => ⟨?_, ?_⟩⟩
  · obtain ⟨hresult, hflag, hw⟩ := exec_subReg_writes (x := x) (y := y) (s := s) rfl
    have := (s.reg y).isLt
    exact ⟨_, rfl, fun hx => by rw [hresult hx]; omega, hflag, hw⟩
  · obtain ⟨hresult, hflag, hw⟩ := exec_subnReg_writes (x := x) (y := y) (s := s) rfl
    have := (s.reg x).isLt
    exact ⟨_, rfl, fun hx => by rw [hresult hx]; omega, hflag, hw⟩

/-- Settles O31: the rules of `8xy6` and `8xyE`, which never stop. -/
theorem shiftsByOne : Obligations.ShiftsByOne :=
  ⟨decodesAs_of_family8 rfl fun w hn => by rw [decode8, hn]; rfl,
    decodesAs_of_family8 rfl fun w hn => by rw [decode8, hn]; rfl,
    fun _ y _ => ⟨⟨_, rfl, exec_shr_writes (y := y) rfl⟩, ⟨_, rfl, exec_shl_writes (y := y) rfl⟩⟩⟩

/-- Settles O32: the byte of the draw masked is the one register written, and the draw is used up besides. -/
theorem randomByteIsDrawnAndMasked : Obligations.RandomByteIsDrawnAndMasked := by
  refine ⟨decodesAs_of_family fun w hf => by rw [decodeWord, hf]; rfl, fun x nn s => ?_⟩
  have hx : (s.drawn.setReg x (s.rndByte &&& nn)).reg x = s.rndByte &&& nn := State.reg_setReg_self _ x _
  have hcomp := rnd_completes x nn (s.rndByte &&& nn) s
  refine ⟨_, rfl, fun k => ?_, rfl, rfl, ?_, hcomp.frame.mono (by simp [partsWritten])⟩
  · exact (congrArg (·.getLsbD k) hx).trans BitVec.getLsbD_and
  · exact fun r hr => hcomp.reg r (by simpa [namesDestination] using hr) (.inr rfl)

end Sys2Proof.Machine
end

section

/-! Words of the families whose sub-opcode is `nn` (`30_encoding.md` R65, R66). -/

namespace Sys2Proof.Machine

/-- Under the mask 0xF0FF a pattern selects every word of its family with its low byte. -/
theorem decodesAs_of_family_nn {pat : Word} {g : Word → Instr}
    (h : ∀ w, family w = family pat → slice w 7 0 = slice pat 7 0 → decodeWord w = g w) : DecodesAs pat 0xF0FF g := by
  rintro w rfl
  exact h w (slice_and_of_full w (by decide)).symm (slice_and_of_full w (by decide)).symm

theorem decodesAs_of_familyF {pat : Word} {g : Word → Instr} (hpat : family pat = 0xF)
    (h : ∀ w, slice w 7 0 = slice pat 7 0 → decodeF w = g w) : DecodesAs pat 0xF0FF g :=
  decodesAs_of_family_nn fun w hf hn => (decodeWord_familyF (hf.trans hpat)).trans (h w hn)

end Sys2Proof.Machine
end

section

/-! Index register, BCD, register store and load (`42_index_memory.md`). -/

namespace Sys2Proof.Machine

/-! ### The index register -/

theorem loadIndex_writes {i : Instr} {a : Word} {s : State} {n : Nat} (h : exec i s = loadIndex a s) (ha : a.toNat = n) :
    ∃ t, exec i s = .next t ∧ t.i.toNat = n ∧ t.pc = s.pc + 2 ∧ Frame [.i, .pc] s t :=
  ⟨_, h, ha, rfl, (frame_pc (frame_i s a) _).mono (by decide)⟩

/-- The offset of a glyph is at most 5 * 255, so 16 bits hold it (decision D14). -/
theorem glyphOffset_toNat (b : Byte) : (5 * zextByte b).toNat = 5 * b.toNat := by
  have := b.isLt
  rw [BitVec.toNat_mul, zextByte_toNat]
  exact Nat.mod_eq_of_lt (show 5 * b.toNat < 65536 by omega)

/-- Settles O34: a 12-bit immediate widened keeps its value. -/
theorem loadIndexImmediate : Obligations.LoadIndexImmediate :=
  ⟨decodesAs_of_family fun w hf => by rw [decodeWord, hf]; rfl, fun nnn _ => loadIndex_writes rfl (zextNNN_toNat nnn)⟩

/-- Settles O35: the sum of two words is modulo 65536, and the product does not wrap. -/
theorem indexArithmetic : Obligations.IndexArithmetic := by
  refine ⟨decodesAs_of_familyF rfl fun w hn => by rw [decodeF, hn]; rfl,
    decodesAs_of_familyF rfl fun w hn => by rw [decodeF, hn]; rfl, fun x s => ⟨?_, ?_⟩⟩
  · exact loadIndex_writes rfl (by rw [BitVec.toNat_add, zextByte_toNat])
  · exact loadIndex_writes rfl (glyphOffset_toNat (s.reg x))

/-! ### Accesses at `I` (R126, R127) -/

section
variable {i : Instr} {m : Nat} {s : State}

/-- The highest address is outside memory: `FAULT` is 2, and nothing was written or loaded before (decision D7). -/
theorem withDataRange_faults {k : State} (h : exec i s = withDataRange m s k) (hout : 0xFFF < s.i.toNat + m) :
    ∃ t, exec i s = .next t ∧ t.fault = 2 ∧ Frame [.fault] s t :=
  ⟨_, h.trans (withDataRange_out hout), rfl, frame_fault s _⟩

theorem storeAtIndex_stores {bs : List Byte} (h : exec i s = storeAtIndex m bs s) (hin : s.i.toNat + m ≤ 0xFFF) :
    ∃ t, exec i s = .next t ∧ (∀ (k : Nat) (hk : k < bs.length), t.read (s.dataAddr k) = bs[k]) ∧
      MemSameOutside (s.dataAddr 0) bs.length s t ∧ t.pc = s.pc + 2 ∧ Frame [.mem, .pc] s t :=
  ⟨_, h.trans (withDataRange_in hin), s.read_store_at (s.dataAddr 0) bs,
    fun _ => s.read_store_outside (s.dataAddr 0) bs, rfl, (frame_pc (frame_mem s _) _).mono (by decide)⟩

end

/-! ### `Fx33` -/

/-- Settles O36: each digit is below 256, so its byte holds it. -/
theorem bcdStoresThreeDigits : Obligations.BcdStoresThreeDigits := by
  refine ⟨decodesAs_of_familyF rfl fun w hn => by rw [decodeF, hn]; rfl,
    fun x s => ⟨fun hin => ?_, withDataRange_faults rfl⟩⟩
  obtain ⟨t, ht, hread, hw⟩ := storeAtIndex_stores (i := .ldBVx x) (bs := bcdDigits (s.reg x)) rfl hin
  have hlen : (bcdDigits (s.reg x)).length = 3 := rfl
  have hlt := (s.reg x).isLt
  refine ⟨t, ht, ?_, ?_, ?_, hw⟩
  · rw [hread 0 (by omega)]
    exact Nat.mod_eq_of_lt (by omega)
  · rw [hread 1 (by omega)]
    exact Nat.mod_eq_of_lt (by omega)
  · rw [hread 2 (by omega)]
    exact Nat.mod_eq_of_lt (by omega)

/-! ### `Fx55` and `Fx65` -/

theorem exec_storeRegs_stores {x : Reg} {s : State} (hin : s.i.toNat + x.val ≤ 0xFFF) :
    ∃ t, exec (.storeRegs x) s = .next t ∧ (∀ k : Reg, k ≤ x → t.read (s.dataAddr k.val) = s.reg k) ∧
      MemSameOutside (s.dataAddr 0) (x.val + 1) s t ∧ t.pc = s.pc + 2 ∧ Frame [.mem, .pc] s t := by
  obtain ⟨t, ht, hread, hmem, hw⟩ := storeAtIndex_stores (i := .storeRegs x) rfl hin
  rw [s.length_regBlock] at hmem
  refine ⟨t, ht, fun k hk => ?_, hmem, hw⟩
  have hlt : k.val < (s.regBlock x).length := by rw [s.length_regBlock]; exact Nat.lt_succ_of_le hk
  rw [hread k.val hlt, s.getElem_regBlock x k.val hlt]

theorem exec_loadRegs_loads {x : Reg} {s : State} (hin : s.i.toNat + x.val ≤ 0xFFF) :
    ∃ t, exec (.loadRegs x) s = .next t ∧
      (∀ k : Reg, t.reg k = if k ≤ x then s.read (s.dataAddr k.val) else s.reg k) ∧
      t.pc = s.pc + 2 ∧ Frame [.v, .pc] s t := by
  refine ⟨_, withDataRange_in hin, fun k => ?_, rfl, (frame_pc (frame_v s _) _).mono (by decide)⟩
  exact (loadBlock_getElem s.read (s.dataAddr 0) s.v (x.val + 1) k.val k.isLt).trans
    (if_congr Nat.lt_succ_iff rfl rfl)

/-- Settles O37: the block of registers is stored as any bytes are, or the fault stands before it. -/
theorem registerStoreWritesBlock : Obligations.RegisterStoreWritesBlock :=
  ⟨decodesAs_of_familyF rfl fun w hn => by rw [decodeF, hn]; rfl,
    fun _ _ => ⟨exec_storeRegs_stores, withDataRange_faults rfl⟩⟩

/-- Settles O38: the registers up to `V[x]` are loaded, or the fault stands before the first. -/
theorem registerLoadReadsBlock : Obligations.RegisterLoadReadsBlock :=
  ⟨decodesAs_of_familyF rfl fun w hn => by rw [decodeF, hn]; rfl,
    fun _ _ => ⟨exec_loadRegs_loads, withDataRange_faults rfl⟩⟩

/-- Settles O39: the store leaves `I` as it was, so the load reads the addresses the store wrote. -/
theorem storeThenLoadRestoresRegisters : Obligations.StoreThenLoadRestoresRegisters := by
  intro x y s t u hin hstore hui humem hyx
  obtain ⟨t', ht', hread, -, -, hframe⟩ := exec_storeRegs_stores hin
  obtain rfl := next_inj (ht'.symm.trans hstore)
  have hi : u.i = s.i := hui.trans (hframe .i (by decide))
  have haddr (k : Nat) : u.dataAddr k = s.dataAddr k := by rw [State.dataAddr, hi, State.dataAddr]
  have hyin : u.i.toNat + y.val ≤ 0xFFF := by
    have hle : y.val ≤ x.val := hyx
    rw [hi]
    omega
  obtain ⟨w, hw, hload, -⟩ := exec_loadRegs_loads hyin
  refine ⟨w, hw, fun k hk => ?_⟩
  calc w.reg k = u.read (u.dataAddr k.val) := by rw [hload k, if_pos hk]
    _ = t.read (s.dataAddr k.val) := by rw [haddr, humem]
    _ = s.reg k := hread k (hk.trans hyx)

end Sys2Proof.Machine
end

section

/-! Display (`43_display.md`): the clear, and the draw in its parallel form (R133), which its repetition undoes (R136). -/

namespace Sys2Proof.Machine

/-! ### The clear -/

theorem Display.pixel_replicate_zero (r : Fin 32) (c : Fin 64) : Display.pixel (Vector.replicate 32 0) r c = false := by
  simp [Display.pixel]

/-- Settles O41: a display of zero rows has no pixel lit, and `PC` is all that is written besides. -/
theorem clearDisplayLeavesVF : Obligations.ClearDisplayLeavesVF :=
  ⟨decodesAs_of_word (by decide), fun s => ⟨_, rfl, Display.pixel_replicate_zero, rfl,
    (frame_pc (frame_disp s _) _).mono (by decide)⟩⟩

/-! ### The pixels a sprite covers -/

section
variable {x y : Reg} {n : Fin 16} {s t : State} {r : Fin 32} {c : Fin 64}

theorem spriteHits_iff_spriteCovers :
    spriteHits s.read (s.dataAddr 0) (s.reg x) (s.reg y) n.val r c = true ↔ SpriteCovers s x y n r c := by
  simp only [spriteHits_iff, rowHits_iff, SpriteCovers, Fin.ext_iff, screenRow_val, screenCol_val]
  constructor
  · rintro ⟨row, hrow, hr, bit, hbit, hset, hc⟩
    exact ⟨row, bit, hrow, hbit, hr, hc, hset⟩
  · rintro ⟨row, bit, hrow, hbit, hr, hc, hset⟩
    exact ⟨row, hrow, hr, bit, hbit, hset, hc⟩

/-- What a sprite covers depends on the two coordinates, `I` and the sprite's bytes alone. -/
theorem spriteCovers_congr (hx : t.reg x = s.reg x) (hy : t.reg y = s.reg y) (hi : t.i = s.i)
    (hread : ∀ k, k < n.val → t.read (s.i.toNat + k) = s.read (s.i.toNat + k)) :
    SpriteCovers t x y n r c ↔ SpriteCovers s x y n r c := by
  unfold SpriteCovers
  rw [hx, hy, hi]
  refine exists_congr fun row => exists_congr fun bit => and_congr_right fun hrow => ?_
  rw [hread row hrow]

/-! ### What a draw answers -/

theorem State.pixel_drawn2D (s : State) (x y : Reg) (n : Fin 16) (r : Fin 32) (c : Fin 64) :
    (s.drawn2D x y n).pixel r c = true ↔ ¬ (s.pixel r c = true ↔ SpriteCovers s x y n r c) := by
  obtain ⟨hpixel, -⟩ := Blit.sprite_spec s.read (s.dataAddr 0) (s.reg x) (s.reg y) ⟨s.disp, false⟩ n.val (by omega)
  have htoggled : (s.drawn2D x y n).pixel r c =
      (s.pixel r c ^^ spriteHits s.read (s.dataAddr 0) (s.reg x) (s.reg y) n.val r c) := hpixel r c
  rw [htoggled, ← spriteHits_iff_spriteCovers, ← Bool.eq_iff_iff, bne_iff_ne]

theorem State.collision_blit (s : State) (x y : Reg) (n : Fin 16) :
    (s.blit x y n).collision = true ↔ ∃ r c, SpriteCovers s x y n r c ∧ s.pixel r c = true := by
  obtain ⟨-, hcollision⟩ := Blit.sprite_spec s.read (s.dataAddr 0) (s.reg x) (s.reg y) ⟨s.disp, false⟩ n.val (by omega)
  simp only [Bool.false_eq_true, false_or, spriteHits_iff_spriteCovers] at hcollision
  exact hcollision

theorem State.reg_VF_drawn2D (s : State) (x y : Reg) (n : Fin 16) :
    (s.drawn2D x y n).reg VF = flagByte (s.blit x y n).collision := by
  simp [State.drawn2D]

theorem flagByte_eq_one_iff (f : Bool) : flagByte f = 1 ↔ f = true := by
  cases f <;> decide

theorem State.reg_VF_drawn2D_eq_one_iff (s : State) (x y : Reg) (n : Fin 16) :
    (s.drawn2D x y n).reg VF = 1 ↔ ∃ r c, SpriteCovers s x y n r c ∧ s.pixel r c = true := by
  rw [s.reg_VF_drawn2D, flagByte_eq_one_iff, s.collision_blit]

theorem State.regsSameBut_drawn2D (s : State) (x y : Reg) (n : Fin 16) : RegsSameBut [VF] s (s.drawn2D x y n) :=
  fun _ hr => State.reg_setReg_ne _ _ (List.ne_of_not_mem_cons hr)

theorem State.frame_drawn2D (s : State) (x y : Reg) (n : Fin 16) : Frame [.v, .disp, .pc] s (s.drawn2D x y n) :=
  (frame_pc (frame_v_disp s _ _) _).mono (by decide)

/-- A draw of no rows makes no range check (R134). -/
theorem exec_drw_draws (hin : n.val = 0 ∨ s.i.toNat + n.val - 1 ≤ 0xFFF) :
    exec (.drw x y n) s = .next (s.drawn2D x y n) := by
  by_cases h0 : n.val = 0
  · exact if_pos h0
  · exact (if_neg h0).trans (withDataRange_in (by omega))

end

/-! ### The statements -/

/-- Settles O42: the blit toggles each covered pixel once, and `VF` is its collision. -/
theorem drawEqualsParallelForm : Obligations.DrawEqualsParallelForm := by
  refine ⟨decodesAs_of_family fun w hf => by rw [decodeWord, hf]; rfl, fun x y n s hin => ⟨s.drawn2D x y n,
    exec_drw_draws hin, s.pixel_drawn2D x y n, (s.reg_VF_drawn2D_eq_one_iff x y n).mpr, fun hnone => ?_, rfl,
    s.regsSameBut_drawn2D x y n, s.frame_drawn2D x y n⟩⟩
  have hflag : flagByte (s.blit x y n).collision ≠ 1 := by
    rwa [ne_eq, flagByte_eq_one_iff, s.collision_blit]
  rw [s.reg_VF_drawn2D]
  exact (flagByte_eq _).resolve_right hflag

/-- Settles O44: the second draw covers the same pixels as the first, and a pixel inverted twice is as before; a covered
pixel that the second finds lit is one that the first found unlit. -/
theorem drawTwiceRestoresDisplay : Obligations.DrawTwiceRestoresDisplay := by
  intro x y n s t t' u hin hfirst hx hy hi hread hdisp hsecond
  obtain rfl := next_inj ((exec_drw_draws hin).symm.trans hfirst)
  obtain rfl := next_inj ((exec_drw_draws (hi ▸ hin)).symm.trans hsecond)
  have hcovers (r c) : SpriteCovers t' x y n r c ↔ SpriteCovers s x y n r c := spriteCovers_congr hx hy hi hread
  have hinverted (r c) : t'.pixel r c = true ↔ ¬ (s.pixel r c = true ↔ SpriteCovers s x y n r c) := by
    rw [hdisp, s.pixel_drawn2D]
  constructor
  · intro r c
    rw [Bool.eq_iff_iff, t'.pixel_drawn2D, hinverted, hcovers]
    tauto
  · rw [t'.reg_VF_drawn2D_eq_one_iff]
    refine exists_congr fun r => exists_congr fun c => ?_
    rw [hcovers, ← Bool.not_eq_true, hinverted]
    tauto

end Sys2Proof.Machine
end

section

/-! Keypad and timers (`44_keypad_timers.md`): the skips on a key, the wait for a key, the moves of the timers, and the sound
timer, which no instruction reads. -/

namespace Sys2Proof.Machine

theorem decodesAs_of_familyE {pat : Word} {g : Word → Instr} (hpat : family pat = 0xE)
    (h : ∀ w, slice w 7 0 = slice pat 7 0 → decodeE w = g w) : DecodesAs pat 0xF0FF g :=
  decodesAs_of_family_nn fun w hf hn => (decodeWord_familyE (hf.trans hpat)).trans (h w hn)

/-! ### The scan of the keys (R143) -/

section
variable {s t : State}

theorem State.firstKey_eq_some_iff {k : Fin 16} :
    s.firstKey = some k ↔ s.key k = true ∧ ∀ j, j < k → s.key j = false := by
  refine ⟨State.firstKey_some, fun ⟨hk, hlower⟩ => ?_⟩
  cases hfirst : s.firstKey with
  | none => simp [State.firstKey_none hfirst k] at hk
  | some j =>
    obtain ⟨hj, hlower'⟩ := State.firstKey_some hfirst
    rcases lt_trichotomy j k with hlt | rfl | hgt
    · simp [hlower j hlt] at hj
    · rfl
    · simp [hlower' k hgt] at hk

theorem State.firstKey_eq_none_iff : s.firstKey = none ↔ ∀ k, s.key k = false := by
  refine ⟨State.firstKey_none, fun hreleased => Option.eq_none_iff_forall_ne_some.mpr fun k hk => ?_⟩
  simpa [hreleased k] using (State.firstKey_some hk).1

/-- The scan reads the keypad alone. -/
theorem State.firstKey_congr (h : ∀ k, t.key k = s.key k) : t.firstKey = s.firstKey :=
  Option.ext fun k => by simp only [State.firstKey_eq_some_iff, h]

theorem execLdVxK_takes {k : Fin 16} (x : Reg) (h : s.firstKey = some k) :
    execLdVxK x s = resultOnly x (BitVec.ofNat 8 k.val) s := by
  rw [execLdVxK, h]
  rfl

theorem execLdVxK_waits (x : Reg) (h : s.firstKey = none) : execLdVxK x s = .next s := by
  rw [execLdVxK, h]

end

/-- Settles O45: the lowest pressed key is the one the scan finds, and its number fits in a byte. -/
theorem keyWaitTakesLowestKeyOrStalls : Obligations.KeyWaitTakesLowestKeyOrStalls := by
  refine ⟨decodesAs_of_familyF rfl fun w hn => by rw [decodeF, hn]; rfl,
    fun x s => ⟨fun k hk hlower => ?_, fun hnone => ?_⟩⟩
  · obtain ⟨t, ht, hx, hw⟩ :=
      resultOnly_writes (i := .ldVxK x) (execLdVxK_takes x (State.firstKey_eq_some_iff.mpr ⟨hk, hlower⟩))
    refine ⟨t, ht, ?_, hw⟩
    rw [hx]
    exact Nat.mod_eq_of_lt (show k.val < 256 by omega)
  · exact execLdVxK_waits x (State.firstKey_eq_none_iff.mpr hnone)

/-! ### The sound timer (R147, `10_state.md` R20) -/

section
variable {b : Byte} {s t : State}

theorem withDataRange_withST {m : Nat} {k : State} (h : withDataRange m s k = .next t) :
    withDataRange m { s with st := b } { k with st := b } = .next { t with st := b } := by
  rcases withDataRange_cases h with ⟨hin, rfl⟩ | ⟨hout, rfl⟩
  · exact withDataRange_in hin
  · exact withDataRange_out hout

theorem execRet_withST (h : execRet s = .next t) : execRet { s with st := b } = .next { t with st := b } := by
  rcases execRet_cases h with ⟨hempty, rfl⟩ | ⟨k, hk, rfl⟩
  · exact execRet_underflows (congrArg BitVec.toNat hempty)
  · exact execRet_pops (s := { s with st := b }) hk

theorem execCall_withST {nnn : BitVec 12} (h : execCall nnn s = .next t) :
    execCall nnn { s with st := b } = .next { t with st := b } := by
  rcases execCall_cases h with ⟨hfull, rfl⟩ | ⟨hlt, rfl⟩
  · exact execCall_overflows nnn (congrArg BitVec.toNat hfull)
  · exact execCall_pushes nnn (s := { s with st := b }) hlt

theorem execLdVxK_withST {x : Reg} (h : execLdVxK x s = .next t) :
    execLdVxK x { s with st := b } = .next { t with st := b } := by
  have same_key : ({ s with st := b } : State).firstKey = s.firstKey := State.firstKey_congr fun _ => rfl
  rcases execLdVxK_cases h with ⟨k, hk, rfl⟩ | ⟨hk, rfl⟩
  · exact execLdVxK_takes x (same_key.trans hk)
  · exact execLdVxK_waits x (same_key.trans hk)

theorem execDrw_withST {x y : Reg} {n : Fin 16} (h : execDrw x y n s = .next t) :
    execDrw x y n { s with st := b } = .next { t with st := b } := by
  unfold execDrw at h ⊢
  split at h
  · next hn => rw [if_pos hn, next_inj h]; rfl
  · next hn => rw [if_neg hn]; exact withDataRange_withST h

/-- An instruction other than `Fx18` neither reads the sound timer nor writes it. -/
theorem exec_withST {i : Instr} (hi : ∀ x, i ≠ .ldSTVx x) (h : exec i s = .next t) :
    exec i { s with st := b } = .next { t with st := b } := by
  cases i with
  | ldSTVx x => exact absurd rfl (hi x)
  | ret => exact execRet_withST h
  | call nnn => exact execCall_withST h
  | ldVxK x => exact execLdVxK_withST h
  | drw x y n => exact execDrw_withST h
  | ldBVx | storeRegs | loadRegs => exact withDataRange_withST h
  | _ =>
    obtain rfl := next_inj h
    rfl

end

/-- Settles O52: `Fx18` overwrites the value set, and every other instruction carries it over. -/
theorem soundTimerHasNoInfluence : Obligations.SoundTimerHasNoInfluence := by
  intro i s t b h
  by_cases hi : ∃ x, i = .ldSTVx x
  · obtain ⟨x, rfl⟩ := hi
    obtain rfl := next_inj h
    exact ⟨_, rfl, frame_refl _ _, .inl rfl⟩
  · exact ⟨_, exec_withST (not_exists.mp hi) h, frame_st t b, .inr rfl⟩

/-! ### The skips on a key (R140 to R142) -/

/-- Settles O25: the condition of `Ex9E` is that key `V[x] mod 16` is pressed, that of `ExA1` its negation. -/
theorem skipsOnKeys : Obligations.SkipsOnKeys := by
  refine ⟨decodesAs_of_familyE rfl fun w hn => by rw [decodeE, hn]; rfl,
    decodesAs_of_familyE rfl fun w hn => by rw [decodeE, hn]; rfl, fun x k s hk => ?_⟩
  obtain rfl : k = keyNumber (s.reg x) := Fin.ext hk
  exact ⟨skips_of_exec_eq rfl id id, skips_of_exec_eq rfl (congrArg not) (congrArg not)⟩

/-! ### The moves of the timers (R144 to R146) -/

/-- Settles O46: each move writes its one destination, and `PC`. -/
theorem timerMoves : Obligations.TimerMoves := by
  refine ⟨decodesAs_of_familyF rfl fun w hn => by rw [decodeF, hn]; rfl,
    decodesAs_of_familyF rfl fun w hn => by rw [decodeF, hn]; rfl,
    decodesAs_of_familyF rfl fun w hn => by rw [decodeF, hn]; rfl, fun x s => ⟨resultOnly_writes rfl, ?_, ?_⟩⟩
  · exact ⟨_, rfl, rfl, rfl, (frame_pc (frame_dt s (s.reg x)) _).mono (by decide)⟩
  · exact ⟨_, rfl, rfl, rfl, (frame_pc (frame_st s (s.reg x)) _).mono (by decide)⟩

end Sys2Proof.Machine
end

section

/-! The unrecognized words (`45_unrecognized.md`): a report and `PC + 2`, and nothing else. -/

namespace Sys2Proof.Machine

/-- R150, for any word the fallback row carries: it is not examined, only reported. -/
theorem exec_unknown_reports (op : Word) (s : State) : ∃ t, exec (.unknown op) s = .next t ∧
    t.outputs = .unimpl s.pc op :: s.outputs ∧ t.pc = s.pc + 2 ∧ Frame [.outputs, .pc] s t :=
  ⟨(s.emit (.unimpl s.pc op)).advance, rfl, State.emit_outputs s _, State.advance_pc _,
    (frame_pc (frame_outputs s _) _).mono (by decide)⟩

/-- Settles O47: the fallback row is what the words of the four classes decode to, and it reports and advances. -/
theorem unrecognizedIsReportedNoOp : Obligations.UnrecognizedIsReportedNoOp :=
  ⟨fun _ hw => decodeWord_eq_unknown_iff.mpr ⟨rfl, hw⟩, exec_unknown_reports⟩

end Sys2Proof.Machine
end

section

/-! The host's schedule (`60_exceptions.md` R186, `70_reset_and_hazards.md` R200): which event a step takes. -/

namespace Sys2Proof.Machine

/-- A step is the event it takes, at the state without it. -/
theorem step_of_takeEvent {s t : State} {e : Event} (h : s.takeEvent = (e, t)) : step s = applyEvent e t := by
  rw [step, nextEvent, h]

theorem State.takeEvent_again_nil {s : State} (h : s.schedule = []) (ha : s.afterwards = .again []) :
    s.takeEvent = (.cycle, s) := by
  simp [State.takeEvent, h, ha]

theorem State.takeEvent_again_cons {s : State} {e : Event} {rest : List Event} (h : s.schedule = [])
    (ha : s.afterwards = .again (e :: rest)) : s.takeEvent = (e, { s with schedule := rest }) := by
  simp [State.takeEvent, h, ha]

theorem State.takeEvent_free {s : State} {k : Nat} (h : s.schedule = []) (ha : s.afterwards = .free k) :
    s.takeEvent = (Config.hostEvent k, { s with afterwards := .free (k + 1) }) := by
  simp [State.takeEvent, h, ha]

/-- Settles O8: the event taken, for each form of the schedule. -/
theorem stepTakesTheNextEvent : Obligations.StepTakesTheNextEvent := by
  refine fun s => ⟨fun e rest h => step_of_takeEvent (State.takeEvent_cons h), fun h ha => ?_,
    fun e rest h ha => step_of_takeEvent (State.takeEvent_again_cons h ha),
    fun k h ha => step_of_takeEvent (State.takeEvent_free h ha)⟩
  rcases ha with ha | ha
  · exact step_cycle (State.takeEvent_cycles h ha)
  · exact step_cycle (State.takeEvent_again_nil h ha)

end Sys2Proof.Machine
end

section

/-! The Tick and SetKeys events (`60_exceptions.md` R171, R175), and the other input events of a halted core (R162,
R163). -/

namespace Sys2Proof.Machine

theorem frame_dt_st (s : State) (d t : Byte) : Frame [.dt, .st] s { s with dt := d, st := t } := by
  intro p hp
  cases p <;> simp [Part.Same, State.read, State.pixel, State.reg] at hp ⊢

theorem frame_keypad (s : State) (keys : Keypad) : Frame [.keypad] s { s with keypad := keys } := by
  intro p hp
  cases p <;> simp [Part.Same, State.read, State.pixel, State.reg] at hp ⊢

/-! ### Tick -/

/-- The truncated difference is the rule of R171 in one term: zero stays zero. -/
theorem tickTimer_toNat (b : Byte) : (tickTimer b).toNat = b.toNat - 1 := by
  unfold tickTimer
  split
  · next h => simp [h]
  · next h => bv_omega

theorem tickTimer_zero : tickTimer 0 = 0 := if_pos rfl

theorem tickTimer_toNat_add_one {b : Byte} (h : b ≠ 0) : (tickTimer b).toNat + 1 = b.toNat := by
  rw [tickTimer_toNat]
  bv_omega

/-- Settles O4: both timers obey the one rule of a timer. -/
theorem tickDecrementsNonzeroTimers : Obligations.TickDecrementsNonzeroTimers := fun s =>
  ⟨tickEvent s, rfl, tickTimer_toNat_add_one, fun h => (congrArg tickTimer h).trans tickTimer_zero,
    tickTimer_toNat_add_one, fun h => (congrArg tickTimer h).trans tickTimer_zero, frame_dt_st s _ _⟩

/-! ### The keypad -/

theorem keypad_notMem_partsWritten (i : Instr) : Part.keypad ∉ partsWritten i := by
  cases i <;> simp [partsWritten]

theorem exec_keypad {i : Instr} {s t : State} (h : exec i s = .next t) : t.keypad = s.keypad := by
  rcases exec_faults_or_completes h with ⟨-, c, rfl⟩ | hc
  · rfl
  · exact hc.frame .keypad (by simp [keypad_notMem_partsWritten])

/-- Everything a Cycle that answers a next state can do: nothing, a fetch fault, or the instruction fetched. -/
theorem cycle_cases {s t : State} (h : cycle s = .next t) :
    (s.fault ≠ 0 ∧ t = s) ∨ (s.fault = 0 ∧ 0x0FFE < s.pc.toNat ∧ t = { s with fault := Cause.code .fetchOob }) ∨
    (s.fault = 0 ∧ s.pc.toNat ≤ 0x0FFE ∧ exec (decodeWord s.fetchWord) s = .next t) := by
  by_cases hfault : s.fault = 0
  · rcases Nat.lt_or_ge 0x0FFE s.pc.toNat with hpc | hpc
    · exact .inr (.inl ⟨hfault, hpc, next_inj ((cycle_fetchOob hfault hpc).symm.trans h)⟩)
    · exact .inr (.inr ⟨hfault, hpc, (cycle_runs hfault hpc).symm.trans h⟩)
  · exact .inl ⟨hfault, next_inj ((cycle_halted hfault).symm.trans h)⟩

/-- Settles O5: the event writes the keypad, which no instruction and no fault does. -/
theorem setKeysWritesTheKeypadAndCyclesLeaveIt : Obligations.SetKeysWritesTheKeypadAndCyclesLeaveIt := by
  refine ⟨fun keys s => ⟨setKeysEvent keys s, rfl, fun _ => rfl, frame_keypad s keys⟩, fun s t h => ?_⟩
  rcases cycle_cases h with ⟨-, rfl⟩ | ⟨-, -, rfl⟩ | ⟨-, -, hexec⟩
  · rfl
  · rfl
  · exact exec_keypad hexec

/-! ### The halted core -/

theorem loadRomEvent_fault (data : List Byte) (s : State) : (loadRomEvent data s).fault = s.fault := by
  unfold loadRomEvent
  split <;> rfl

/-- Settles O6: the Cycle is ignored, and of the other events only Reset writes `FAULT`. -/
theorem haltedCoreWaitsForReset : Obligations.HaltedCoreWaitsForReset := by
  refine fun s hfault => ⟨cycle_halted hfault, fun e he => ?_, resetEvent s, rfl, rfl⟩
  cases e with
  | reset => exact absurd rfl he
  | cycle => exact ⟨s, cycle_halted hfault, rfl⟩
  | loadRom data => exact ⟨_, rfl, loadRomEvent_fault data s⟩
  | tick => exact ⟨_, rfl, rfl⟩
  | setKeys keys => exact ⟨_, rfl, rfl⟩

end Sys2Proof.Machine
end

section

/-! The four faults (`60_exceptions.md` R160 to R168): the condition of each, and that it is precise. -/

namespace Sys2Proof.Machine

/-- Settles O10: such a fetch writes `FAULT` alone. -/
theorem fetchOutsideMemoryFaults : Obligations.FetchOutsideMemoryFaults :=
  fun s hfault hpc => ⟨_, cycle_fetchOob hfault hpc, rfl, frame_fault s _⟩

/-- Settles O43: a draw of one row or more makes the range check before any effect. -/
theorem drawOutsideMemoryFaults : Obligations.DrawOutsideMemoryFaults :=
  fun _ _ _ _ hn hout => withDataRange_faults (if_neg (by omega)) (by omega)

/-- Settles O48: an instruction that can fault either raises its one cause, under its condition, or completes and leaves
`FAULT` zero; the others always complete. -/
theorem faultsArePreciseAndOfTheNamedCause : Obligations.FaultsArePreciseAndOfTheNamedCause := by
  intro i s t hs h hfault
  have hcan : canFault i = true := by
    rcases exec_faults_or_completes h with ⟨hcan, -⟩ | hc
    · exact hcan
    · exact absurd (hc.fault_eq.trans hs) hfault
  cases i with
  | ret =>
    rcases execRet_cases h with ⟨hempty, rfl⟩ | ⟨_, _, rfl⟩
    · exact ⟨rfl, .inl ⟨rfl, rfl, congrArg BitVec.toNat hempty⟩⟩
    · exact absurd hs hfault
  | call nnn =>
    rcases execCall_cases h with ⟨hfull, rfl⟩ | ⟨_, rfl⟩
    · exact ⟨rfl, .inr (.inl ⟨⟨nnn, rfl⟩, rfl, congrArg BitVec.toNat hfull⟩)⟩
    · exact absurd hs hfault
  | drw x y n =>
    rcases execDrw_cases h with ⟨-, rfl⟩ | ⟨hn, hout, rfl⟩
    · exact absurd hs hfault
    · exact ⟨rfl, .inr (.inr ⟨rfl, .inl ⟨x, y, n, rfl, hn, by omega⟩⟩)⟩
  | ldBVx x =>
    rcases storeAtIndex_cases h with ⟨-, rfl⟩ | ⟨hout, rfl⟩
    · exact absurd hs hfault
    · exact ⟨rfl, .inr (.inr ⟨rfl, .inr (.inl ⟨x, rfl, hout⟩)⟩)⟩
  | storeRegs x =>
    rcases storeAtIndex_cases h with ⟨-, rfl⟩ | ⟨hout, rfl⟩
    · exact absurd hs hfault
    · exact ⟨rfl, .inr (.inr ⟨rfl, .inr (.inr ⟨x, .inl rfl, hout⟩)⟩)⟩
  | loadRegs x =>
    rcases execLoadRegs_cases h with ⟨-, rfl⟩ | ⟨hout, rfl⟩
    · exact absurd hs hfault
    · exact ⟨rfl, .inr (.inr ⟨rfl, .inr (.inr ⟨x, .inr rfl, hout⟩)⟩)⟩
  | _ => exact absurd hcan Bool.false_ne_true

end Sys2Proof.Machine
end

section

/-! No stop in a state that meets the invariant (`60_exceptions.md` R169): with `SP` at most 16 every entry a call or a
return needs exists. -/

namespace Sys2Proof.Machine

theorem withDataRange_answers (m : Nat) (s k : State) : ∃ t, withDataRange m s k = .next t := by
  rcases Nat.lt_or_ge 0xFFF (s.i.toNat + m) with hout | hin
  · exact ⟨_, withDataRange_out hout⟩
  · exact ⟨_, withDataRange_in hin⟩

section
variable {s : State}

theorem execRet_answers (h : s.sp.toNat ≤ 16) : ∃ t, execRet s = .next t := by
  cases hsp : s.sp.toNat with
  | zero => exact ⟨_, execRet_underflows hsp⟩
  | succ k => exact ⟨_, execRet_pops (k := ⟨k, by omega⟩) hsp⟩

theorem execCall_answers (nnn : BitVec 12) (h : s.sp.toNat ≤ 16) : ∃ t, execCall nnn s = .next t := by
  rcases Nat.lt_or_eq_of_le h with hlt | hfull
  · exact ⟨_, execCall_pushes nnn hlt⟩
  · exact ⟨_, execCall_overflows nnn hfull⟩

theorem execLdVxK_answers (x : Reg) : ∃ t, execLdVxK x s = .next t := by
  cases hk : s.firstKey with
  | none => exact ⟨_, execLdVxK_waits x hk⟩
  | some k => exact ⟨_, execLdVxK_takes x hk⟩

theorem execDrw_answers (x y : Reg) (n : Fin 16) : ∃ t, execDrw x y n s = .next t := by
  by_cases hn : n.val = 0
  · exact ⟨_, if_pos hn⟩
  · obtain ⟨t, ht⟩ := withDataRange_answers (n.val - 1) s (s.drawn2D x y n)
    exact ⟨t, (if_neg hn).trans ht⟩

theorem exec_answers (i : Instr) (h : s.sp.toNat ≤ 16) : ∃ t, exec i s = .next t := by
  cases i with
  | ret => exact execRet_answers h
  | call nnn => exact execCall_answers nnn h
  | ldVxK x => exact execLdVxK_answers x
  | drw x y n => exact execDrw_answers x y n
  | ldBVx | storeRegs | loadRegs => exact withDataRange_answers _ _ _
  | _ => exact ⟨_, rfl⟩

theorem cycle_answers (h : s.sp.toNat ≤ 16) : ∃ t, cycle s = .next t := by
  by_cases hfault : s.fault = 0
  · rcases Nat.lt_or_ge 0x0FFE s.pc.toNat with hpc | hpc
    · exact ⟨_, cycle_fetchOob hfault hpc⟩
    · exact cycle_runs hfault hpc ▸ exec_answers (decodeWord s.fetchWord) h
  · exact ⟨s, cycle_halted hfault⟩

theorem applyEvent_answers (e : Event) (h : s.sp.toNat ≤ 16) : ∃ t, applyEvent e s = .next t := by
  cases e with
  | cycle => exact cycle_answers h
  | _ => exact ⟨_, rfl⟩

end

/-- Settles O56: the next event, taken in a state that still meets the invariant, answers. -/
theorem invariantStatesNeverStop : Obligations.InvariantStatesNeverStop :=
  fun s hs => applyEvent_answers s.takeEvent.1 (takeEvent_keeps_inv hs).sp_le

end Sys2Proof.Machine
end

section

/-! The timers of a core that no Cycle changes, under an endless frame of events (`60_exceptions.md` R171, R173,
`70_reset_and_hazards.md` R199 to R201). -/

namespace Sys2Proof.Machine

/-! ### The core at rest -/

/-- The program has come to its end (R201), or the core has halted (R162). -/
def State.AtRest (s : State) : Prop := s.finished = true ∨ s.fault ≠ 0

/-- A finished run: a fetch inside memory finds a jump to its own address. -/
theorem State.finished_iff (s : State) : s.finished = true ↔
    s.fault = 0 ∧ s.pc.toNat ≤ 0x0FFE ∧ ∃ nnn, decodeWord s.fetchWord = .jp nnn ∧ zextNNN nnn = s.pc := by
  unfold State.finished
  split
  · next nnn hjp => simp [State.safe, s.fetchInRange_iff, hjp, and_assoc]
  · next hno =>
    have hjp : ¬ ∃ nnn, decodeWord s.fetchWord = .jp nnn ∧ zextNNN nnn = s.pc := fun ⟨nnn, h, _⟩ => hno nnn h
    simp [hjp]

theorem cycle_of_finished {s : State} (h : s.finished = true) : cycle s = .next s := by
  obtain ⟨hfault, hpc, nnn, hjp, htarget⟩ := s.finished_iff.mp h
  calc cycle s = exec (.jp nnn) s := by rw [cycle_runs hfault hpc, hjp]
    _ = .next (s.jumpTo s.pc) := by rw [← htarget]; rfl
    _ = .next s := rfl

theorem State.AtRest.cycle_eq {s : State} (h : s.AtRest) : cycle s = .next s :=
  h.elim cycle_of_finished cycle_halted

/-! ### One event -/

/-- Neither Reset nor LoadRom: an event that writes no part a core at rest depends on. -/
def Event.LeavesProgram (e : Event) : Prop := e ≠ .reset ∧ ∀ data, e ≠ .loadRom data

/-- A core at rest with the events `l` to come and then `frame` for ever, both timers at most `k`. -/
structure Counting (frame l : List Event) (k : Nat) (s : State) : Prop where
  atRest : s.AtRest
  schedule : s.schedule = l
  afterwards : s.afterwards = .again frame
  dt_le : s.dt.toNat ≤ k
  st_le : s.st.toNat ≤ k

section
variable {frame l : List Event} {k : Nat} {s : State}

theorem Counting.tick (h : Counting frame l k s) : Counting frame l (k - 1) (tickEvent s) :=
  { h with
    dt_le := (tickTimer_toNat s.dt).trans_le (Nat.sub_le_sub_right h.dt_le 1)
    st_le := (tickTimer_toNat s.st).trans_le (Nat.sub_le_sub_right h.st_le 1) }

/-- A Tick lowers the bound, and the Cycles and key events between leave it. -/
theorem Counting.applyEvent {e : Event} (h : Counting frame l k s) (he : e.LeavesProgram) :
    ∃ t, applyEvent e s = .next t ∧ Counting frame l (k - [e].count .tick) t := by
  cases e with
  | reset => exact absurd rfl he.1
  | loadRom data => exact absurd rfl (he.2 data)
  | cycle => exact ⟨s, h.atRest.cycle_eq, h⟩
  | tick => exact ⟨tickEvent s, rfl, h.tick⟩
  | setKeys keys => exact ⟨setKeysEvent keys s, rfl, { h with }⟩

/-! ### One frame, and frame after frame -/

/-- The events of the schedule, one step each. -/
theorem Counting.runs_schedule (hl : ∀ e ∈ l, e.LeavesProgram) (h : Counting frame l k s) :
    ∃ t, runs l.length s = .next t ∧ Counting frame [] (k - l.count .tick) t := by
  induction l generalizing k s with
  | nil => exact ⟨s, rfl, h⟩
  | cons e rest ih =>
    obtain ⟨he, hrest⟩ := List.forall_mem_cons.mp hl
    have taken : Counting frame rest k { s with schedule := rest } := { h with schedule := rfl }
    obtain ⟨t, ht, hcount⟩ := taken.applyEvent he
    obtain ⟨u, hu, hdone⟩ := ih hrest hcount
    have hstep : step s = .next t := (step_of_takeEvent (State.takeEvent_cons h.schedule)).trans ht
    refine ⟨u, (runs_succ hstep).trans hu, ?_⟩
    rwa [← List.singleton_append, List.count_append, ← Nat.sub_sub]

/-- With the schedule empty the frame is issued as if it were the schedule. -/
theorem Counting.runs_frame (h : Counting frame [] k s) :
    runs frame.length s = runs frame.length { s with schedule := frame } := by
  cases frame with
  | nil => rw [← h.schedule]
  | cons e rest =>
    have hstep : step s = step { s with schedule := e :: rest } :=
      (step_of_takeEvent (State.takeEvent_again_cons h.schedule h.afterwards)).trans
        (step_of_takeEvent (State.takeEvent_cons (s := { s with schedule := e :: rest }) rfl)).symm
    simp only [List.length_cons, runs, hstep]

/-- A frame with a Tick in it lowers the bound by one or more. -/
theorem Counting.runs_once (hframe : ∀ e ∈ frame, e.LeavesProgram) (htick : .tick ∈ frame)
    (h : Counting frame [] (k + 1) s) :
    ∃ t, runs frame.length s = .next t ∧ Counting frame [] k t := by
  have issued : Counting frame frame (k + 1) { s with schedule := frame } := { h with schedule := rfl }
  obtain ⟨t, ht, hcount⟩ := issued.runs_schedule hframe
  have one_le := List.one_le_count_iff.mpr htick
  exact ⟨t, h.runs_frame.trans ht, { hcount with
    dt_le := hcount.dt_le.trans (by omega), st_le := hcount.st_le.trans (by omega) }⟩

theorem Counting.runs_out (hframe : ∀ e ∈ frame, e.LeavesProgram) (htick : .tick ∈ frame)
    (h : Counting frame [] k s) :
    ∃ t, runs (k * frame.length) s = .next t ∧ Counting frame [] 0 t := by
  induction k generalizing s with
  | zero => exact ⟨s, by rw [Nat.zero_mul]; rfl, h⟩
  | succ k ih =>
    obtain ⟨t, ht, hcount⟩ := h.runs_once hframe htick
    obtain ⟨u, hu, hdone⟩ := ih hcount
    exact ⟨u, by rw [Nat.succ_mul, Nat.add_comm, runs_add ht, hu], hdone⟩

end

/-- Settles O57: a timer holds at most 255, and every frame takes one or more from that bound. -/
theorem timersRunOutUnderAnEndlessFrame : Obligations.TimersRunOutUnderAnEndlessFrame := by
  intro s frame hrest hsched hafter htick hreset hrom
  have hframe : ∀ e ∈ frame, e.LeavesProgram :=
    fun e he => ⟨fun h => hreset (h ▸ he), fun data h => hrom data (h ▸ he)⟩
  have start : Counting frame [] 255 s :=
    ⟨hrest, hsched, hafter, Nat.le_of_lt_succ s.dt.isLt, Nat.le_of_lt_succ s.st.isLt⟩
  obtain ⟨t, ht, hdone⟩ := start.runs_out hframe htick
  exact ⟨_, t, Nat.le_refl _, ht, BitVec.eq_of_toNat_eq (Nat.le_zero.mp hdone.dt_le),
    BitVec.eq_of_toNat_eq (Nat.le_zero.mp hdone.st_le)⟩

end Sys2Proof.Machine
end

section

/-! Reset, LoadRom, the boot sequence and the end of a program (`70_reset_and_hazards.md` R190 to R201). -/

namespace Sys2Proof.Machine

/-! ### LoadRom -/

theorem loadRomEvent_refuses {data : List Byte} (hlen : 3584 < data.length) (s : State) :
    loadRomEvent data s = s.emit .romTooLarge := if_neg (Nat.not_le_of_lt hlen)

theorem applyEvent_loadRom_fits {data : List Byte} (hlen : data.length ≤ 3584) (s : State) :
    applyEvent (.loadRom data) s = .next (s.store 0x200 data) := congrArg _ (loadRomEvent_fits hlen s)

theorem applyEvent_loadRom_refuses {data : List Byte} (hlen : 3584 < data.length) (s : State) :
    applyEvent (.loadRom data) s = .next (s.emit .romTooLarge) := congrArg _ (loadRomEvent_refuses hlen s)

/-- Settles O2: an image that fits is a store at 0x200, and one that does not is an output event. -/
theorem loadRomCopiesOrRefuses : Obligations.LoadRomCopiesOrRefuses := fun data s =>
  ⟨fun hlen => ⟨_, applyEvent_loadRom_fits hlen s, s.read_store_at 0x200 data,
      fun _ => s.read_store_outside 0x200 data, frame_mem s _⟩,
    fun hlen => ⟨_, applyEvent_loadRom_refuses hlen s, rfl, frame_outputs s _⟩⟩

/-! ### The boot sequence -/

theorem State.wordOver_first (s : State) (a : Nat) (hi lo : Byte) (rest : List Byte) :
    s.wordOver a (hi :: lo :: rest) a = wordOfBytes hi lo := by
  simp [State.wordOver, State.byteOver]

/-- Settles O3: after Reset `FAULT` is zero and `PC` is where LoadRom stores the image, so the first Cycle fetches its
first word. -/
theorem bootRunsTheImageFromItsFirstWord : Obligations.BootRunsTheImageFromItsFirstWord := by
  intro s hi lo rest hlen
  have hload := applyEvent_loadRom_fits hlen (resetEvent s)
  have hcycle : cycle ((resetEvent s).store 0x200 (hi :: lo :: rest)) =
      exec (decodeWord ((resetEvent s).wordOver 0x200 (hi :: lo :: rest) 0x200)) _ :=
    cycle_after_loadRom rfl hlen hload (by decide : (0x0200 : Word).toNat ≤ 0x0FFE)
  rw [State.wordOver_first] at hcycle
  exact ⟨resetEvent s, _, rfl, hload, rfl, frame_mem _ _, fun _ => State.read_store_outside _ 0x200 _, hcycle⟩

/-! ### The end of a program -/

/-- Settles O53: the jump to its own address writes `PC` with what it holds. -/
theorem finishedRunIsFixed : Obligations.FinishedRunIsFixed := by
  intro s h
  obtain ⟨hfault, -⟩ := s.finished_iff.mp h
  exact ⟨cycle_of_finished h, hfault⟩

/-! ### Reset -/

/-- Reset memory lists nothing. -/
theorem read_resetEvent (s : State) (a : Nat) : (resetEvent s).read a = Memory.unlisted s.fontset a := rfl

/-- The reset state of a `FONTSET` is what a Reset event leaves of itself, so the two ways to a reset state are one. -/
theorem eq_resetEvent {t : State} (h : (∃ f, t = State.resetWith f) ∨ ∃ s, applyEvent .reset s = .next t) :
    ∃ s, t = resetEvent s := by
  rcases h with ⟨f, rfl⟩ | ⟨s, h⟩
  · exact ⟨State.resetWith f, rfl⟩
  · exact ⟨s, next_inj h⟩

/-- Settles O1: the vectors of a reset state repeat one value, and its memory reads as the unlisted bytes. -/
theorem resetPutsEveryPartAtItsValue : Obligations.ResetPutsEveryPartAtItsValue := by
  refine ⟨fun s => ⟨resetEvent s, rfl, rfl⟩, fun _ => rfl, fun t h => ?_⟩
  obtain ⟨s, rfl⟩ := eq_resetEvent h
  refine ⟨fun r => Vector.getElem_replicate r.isLt, rfl, rfl, rfl, fun k => Vector.getElem_replicate k.isLt, rfl, rfl,
    rfl, Display.pixel_replicate_zero, fun k => Vector.getElem_replicate k.isLt, fun a => ?_, fun a ha _ => ?_⟩
  · exact (read_resetEvent s a).trans (dif_pos a.isLt)
  · exact (read_resetEvent s a).trans (dif_neg (Nat.not_lt_of_le ha))

end Sys2Proof.Machine
end
